-- ==== Sys2Proof/Word.lean ====
section
/-! DEFINITION. The value types of the machine: a byte, a register index, a value of the flags register
(10_state.md rules R11, R14, R17; 00_scope.md rule R4). -/

namespace Sys2Proof

/-- A register, a memory cell, the program counter, an address, an opcode or operand byte: 8 bits, unsigned, and
arithmetic on it is modulo 256 (R4, R5, R14, R15, R30, R37). -/
abbrev Byte := BitVec 8

/-- The index of a general register, 0 to 7 (R11). -/
abbrev Reg := Fin 8

/-- The three values of `fl`, mutually exclusive (R17). R17 lets a model hold `fl` as this enumeration; the bit
patterns are `flagBits` of Machine/Flags.lean. -/
inductive Flag where
  | less
  | greater
  | equal
deriving DecidableEq, Repr

end Sys2Proof
end

