-- ==== Sys2Proof/Config.lean ====
section
/-! DEFINITION. What this hardware fixes once: the parameters of 00_scope.md rule R4 that the machine uses.
The spec leaves no value open (92_eei_decisions.md: no decision is `OPEN`), so there is no free value here. -/

namespace Sys2Proof.Config

/-- `NREG`: a register byte is valid when its value is below this (R4, R52). -/
abbrev nreg : Nat := 8

/-- `MEMSIZE`: addresses 0 to 255 (R4, R30). -/
abbrev memSize : Nat := 256

/-- `SP_INDEX`: register 7 is the stack pointer (R4, R12). -/
def spIndex : Reg := 7

/-- `FL_RESET`: EQUAL (R4, R26; the spec's decision D8). -/
def flReset : Flag := .equal

/-- The value of every register, of `pc` and of every memory cell after reset: the machine is zero-initialised
(R26, R140; `SP_RESET` and `PC_RESET` of R4). -/
def zeroInit : Byte := 0x00

end Sys2Proof.Config
end

