-- ==== Sys2Proof/Syntax.lean ====
section
/-! DEFINITION. The instructions: one constructor per row of spec/opcode_table.json, in the table's order
(30_encoding.md rule R55). -/

namespace Sys2Proof

/-- An instruction as the decoder of R72 binds it. A register operand is the WHOLE operand byte (R52): the operand
check of R73, which comes after the decoder, is what asks that it be at most 7, so a byte above 7 is a term of this
type that `Instr.wf` refuses. -/
inductive Instr where
  /-- HLT (R80) -/
  | hlt
  /-- LDI Ra, imm (R81) -/
  | ldi (a imm : Byte)
  /-- PRN Ra (R82) -/
  | prn (a : Byte)
  /-- ADD Ra, Rb (R86) -/
  | add (a b : Byte)
  /-- MUL Ra, Rb (R87) -/
  | mul (a b : Byte)
  /-- PUSH Ra (R94) -/
  | push (a : Byte)
  /-- POP Ra (R95) -/
  | pop (a : Byte)
  /-- CALL Ra (R100) -/
  | call (a : Byte)
  /-- RET (R101) -/
  | ret
  /-- CMP Ra, Rb (R88) -/
  | cmp (a b : Byte)
  /-- JMP Ra (R102) -/
  | jmp (a : Byte)
  /-- JEQ Ra (R103) -/
  | jeq (a : Byte)
  /-- JNE Ra (R104) -/
  | jne (a : Byte)
deriving DecidableEq, Repr

end Sys2Proof
end

