-- ==== Sys2Proof/WellFormed.lean ====
section
/-! DEFINITION. Which instructions pass the operand check (30_encoding.md rules R52, R60; 40_execution_loop.md
rule R73). -/

namespace Sys2Proof

/-- The operand bytes an instruction uses as register indices, in the order R73 checks them: `a` of eleven
instructions, `b` of ADD, MUL and CMP; LDI's second byte is an immediate and is not among them. -/
def Instr.regBytes : Instr → List Byte
  | .hlt => []
  | .ldi a _ => [a]
  | .prn a => [a]
  | .add a b => [a, b]
  | .mul a b => [a, b]
  | .push a => [a]
  | .pop a => [a]
  | .call a => [a]
  | .ret => []
  | .cmp a b => [a, b]
  | .jmp a => [a]
  | .jeq a => [a]
  | .jne a => [a]

/-- An instruction is well formed when every register byte it uses is 0 to 7 (R52). There is no other check: an
immediate is never invalid (R53, R60). -/
def Instr.wf (i : Instr) : Bool := i.regBytes.all fun b => decide (b.toNat < Config.nreg)

end Sys2Proof
end

