-- ==== Sys2Proof/Decode.lean ====
section
/-! DEFINITION. The decoder (40_execution_loop.md rule R72: a flat map of the whole opcode byte), and after it the
encoder and the lengths (30_encoding.md rules R50, R51, R55, R58). -/

namespace Sys2Proof

/-- What the decoder answers: an instruction, or a rejection that names the byte (R72). -/
inductive DecodeResult where
  | insn (i : Instr)
  | invalidOpcode (ir : Byte)
deriving DecidableEq, Repr

/-- `OPCODE_MAP` (R55), row by row in the table's order: the opcode, and the instruction its two candidate operand
bytes make (R51, R72). An operand byte the format does not use is dropped (R61). -/
def opcodeMap : List (Byte × (Byte → Byte → Instr)) :=
  [ (0x01, fun _ _ => .hlt)
  , (0x82, fun a b => .ldi a b)
  , (0x47, fun a _ => .prn a)
  , (0xA0, fun a b => .add a b)
  , (0xA2, fun a b => .mul a b)
  , (0x45, fun a _ => .push a)
  , (0x46, fun a _ => .pop a)
  , (0x50, fun a _ => .call a)
  , (0x11, fun _ _ => .ret)
  , (0xA7, fun a b => .cmp a b)
  , (0x54, fun a _ => .jmp a)
  , (0x55, fun a _ => .jeq a)
  , (0x56, fun a _ => .jne a) ]

/-- Decode (R72): all eight bits of `ir` are looked up; the operand bytes take no part in the choice (R54). Total: a
byte that is none of the 13 is rejected by name (R59). -/
def decode (ir opa opb : Byte) : DecodeResult :=
  match opcodeMap.lookup ir with
  | some mk => .insn (mk opa opb)
  | none => .invalidOpcode ir

/-- The opcode byte of an instruction (R55). -/
def Instr.opcode : Instr → Byte
  | .hlt => 0x01
  | .ldi _ _ => 0x82
  | .prn _ => 0x47
  | .add _ _ => 0xA0
  | .mul _ _ => 0xA2
  | .push _ => 0x45
  | .pop _ => 0x46
  | .call _ => 0x50
  | .ret => 0x11
  | .cmp _ _ => 0xA7
  | .jmp _ => 0x54
  | .jeq _ => 0x55
  | .jne _ => 0x56

/-- The operand bytes of an instruction in address order (R51: formats `OP`, `OP_R`, `OP_R_R`, `OP_R_I`). -/
def Instr.operands : Instr → List Byte
  | .hlt => []
  | .ldi a imm => [a, imm]
  | .prn a => [a]
  | .add a b => [a, b]
  | .mul a b => [a, b]
  | .push a => [a]
  | .pop a => [a]
  | .call a => [a]
  | .ret => []
  | .cmp a b => [a, b]
  | .jmp a => [a]
  | .jeq a => [a]
  | .jne a => [a]

/-- The bytes of an instruction, opcode at the lowest address (R33, R50, R51). -/
def encode (i : Instr) : List Byte := i.opcode :: i.operands

/-- The length in bytes, a function of the opcode alone (R58): one, and one for each operand byte. -/
def Instr.length (i : Instr) : Nat := 1 + i.operands.length

/-- Bits 7:6 of an opcode, `AA`: the number of operand bytes (R57; informative, the decoder does not use it: R54). -/
def opcodeOperandCount (ir : Byte) : Nat := (ir.extractLsb' 6 2).toNat

/-- Bit 5 of an opcode, `B`: carried out by the ALU (R57; informative). -/
def opcodeIsAlu (ir : Byte) : Bool := ir.getLsbD 5

/-- Bit 4 of an opcode, `C`: the handler sets `pc` itself (R57; informative). -/
def opcodeSetsPc (ir : Byte) : Bool := ir.getLsbD 4

/-- Bits 3:0 of an opcode, `DDDD`: the identifier within the group (R57; informative). -/
def opcodeIdent (ir : Byte) : BitVec 4 := ir.extractLsb' 0 4

/-- The set of known opcodes (R62). -/
def knownOpcodes : List Byte := opcodeMap.map (·.1)

/-- Byte `k` of an instruction given as a number whose bit 0 is bit 0 of the first byte, in `nbits` bits; every bit
above them is zero. -/
def tableByte (nbits w k : Nat) : Byte := BitVec.ofNat 8 (w % 2 ^ nbits / 2 ^ (8 * k))

/-- The instruction the decoder reads from a word numbered as spec/opcode_table.json numbers it. -/
def decodeTableWord (nbits w : Nat) : Option Instr :=
  match decode (tableByte nbits w 0) (tableByte nbits w 1) (tableByte nbits w 2) with
  | .insn i => some i
  | .invalidOpcode _ => none

end Sys2Proof
end

