-- ==== Sys2Proof/Machine/State.lean ====
section
/-! DEFINITION. The state of the machine as plain data: the eight items of 10_state.md rule R10, less the three fetch
latches that R24 makes local values of a step; the state after reset (R26); and the reasons a step can stop. -/

namespace Sys2Proof.Machine

/-- The fault causes (60_exceptions.md rule R120); their codes are `causeCode`. -/
inductive Cause where
  /-- code 1: the fetched opcode byte is not one of the 13 (R121) -/
  | invalidOpcode
  /-- code 2: a used register byte is above 7 (R122) -/
  | registerIndexFault
  /-- code 3: the ALU was given another tag than ADD, MUL, CMP (R123); no step of the machine raises it -/
  | unsupportedALUOperation
deriving DecidableEq, Repr

/-- The record the fault latch holds: `(cause, pc, ir, opa, opb)` (R20, R126). -/
structure FaultRecord where
  cause : Cause
  pc : Byte
  ir : Byte
  opa : Byte
  opb : Byte
deriving DecidableEq, Repr

/-- The three bytes a step fetches (R24, R71); values of one step, no part of State. -/
structure Fetched where
  ir : Byte
  opa : Byte
  opb : Byte
deriving DecidableEq, Repr

/-- Memory as (address, byte) pairs in one canonical form (`Memory.wf`): addresses strictly rising and below 256, and
no entry equal to `Config.zeroInit`, which is what an unlisted address reads as (R26, R31). -/
abbrev Memory := List Host.Cell

/-- The canonical form of a memory. -/
abbrev Memory.wf (m : Memory) : Prop :=
  m.Pairwise (fun c d => c.1 < d.1) ∧ ∀ c ∈ m, c.1 < Config.memSize ∧ c.2 ≠ Config.zeroInit

/-- The state (R10). -/
structure State where
  /-- `x[0]` to `x[7]`; `x[7]` is SP (R11 to R14) -/
  x : Vector Byte 8
  /-- the program counter (R15, R16) -/
  pc : Byte
  /-- the flags (R17, R18) -/
  fl : Flag
  /-- the Running flag (R19) -/
  running : Bool
  /-- the fault latch: empty, or one record (R20) -/
  fault : Option FaultRecord
  /-- `mem[0]` to `mem[255]` (R22, R30) -/
  mem : Memory
  /-- what PRN has handed to the output sink since reset, oldest first (R25) -/
  out : List Byte
deriving DecidableEq, Repr

/-- The machine right after reset (R26, R140). -/
def State.reset : State where
  x := Vector.replicate 8 Config.zeroInit
  pc := Config.zeroInit
  fl := Config.flReset
  running := true
  fault := none
  mem := []
  out := []

/-- Why `step` answers no next state. Both say that the machine takes no step any more (R70), which is where the
hardware stands too: the run has ended (R146). The spec's own fatal errors are NOT here: R126 gives them an entry (the
latch is filled), so they are next states. -/
inductive Fault where
  /-- Raised by `step` alone, when `running` is 0 (R70): HLT ended the run. Safe: the hardware takes no step either. -/
  | halted
  /-- Raised by `step` alone, when `running` is 1 and `fault` is filled (R70, R127): a fault ended the run. Safe: the
  hardware takes no step either. -/
  | faultLatched
deriving DecidableEq, Repr

/-- Why an instruction has no meaning in the model. -/
inductive Refusal where
  /-- Raised by an arm of `exec` whose instruction has no meaning yet; there is no such arm. Safe: it stops the run. -/
  | notModelled (mnemonic : String)
deriving DecidableEq, Repr

end Sys2Proof.Machine
end

