-- ==== Sys2Proof/Machine/Ops.lean ====
section
/-! DEFINITION. The shared operations: memory (20_memory.md rule R31), registers, the stack primitives
(43_stack.md rules R92, R93), the fetch (R71), the program counter, the output, and taking a fault (R126). There is no
return from a fault (R127), so no operation for one. -/

namespace Sys2Proof.Machine

/-- The byte listed for an address, or what an unlisted address reads as. -/
def Memory.lookupAt : Memory → Nat → Byte
  | [], _ => Config.zeroInit
  | c :: m, a => if c.1 = a then c.2 else Memory.lookupAt m a

/-- `MemRead(addr, 1)` (R31): total, no side effect. -/
def Memory.read (m : Memory) (a : Byte) : Byte := m.lookupAt a.toNat

/-- The memory with no entry for an address. -/
def Memory.dropAt (m : Memory) (a : Nat) : Memory := m.filter fun c => decide (c.1 ≠ a)

/-- The memory with one more entry, before the first entry of a higher address. -/
def Memory.insertAt : Memory → Nat → Byte → Memory
  | [], a, v => [(a, v)]
  | c :: m, a, v => if a < c.1 then (a, v) :: c :: m else c :: Memory.insertAt m a v

/-- `MemWrite(addr, 1, v)` (R31): total, changes no other cell, keeps the canonical form. -/
def Memory.write (m : Memory) (a v : Byte) : Memory :=
  if v = Config.zeroInit then m.dropAt a.toNat else (m.dropAt a.toNat).insertAt a.toNat v

/-- `x[i]` (R6, R11). No register is hardwired. -/
def State.reg (s : State) (r : Reg) : Byte := s.x[r.val]

/-- `x[i] <- v` (R6, R11). -/
def State.setReg (s : State) (r : Reg) (v : Byte) : State := { s with x := s.x.set r.val v }

/-- `SP`, another spelling of `x[7]` (R6, R12). -/
def State.sp (s : State) : Byte := s.reg Config.spIndex

/-- `SP <- v` (R6). -/
def State.setSp (s : State) (v : Byte) : State := s.setReg Config.spIndex v

/-- `MemWrite` on the state's memory (R31). -/
def State.store (s : State) (a v : Byte) : State := { s with mem := s.mem.write a v }

/-- `pc <- target` (R6, R105). -/
def State.jump (s : State) (target : Byte) : State := { s with pc := target }

/-- `pc <- (pc + n) mod 256` (R16, R37). -/
def State.advance (s : State) (n : Nat) : State := s.jump (s.pc + BitVec.ofNat 8 n)

/-- `Output(v)` (R114): always succeeds. -/
def State.output (s : State) (v : Byte) : State := { s with out := s.out ++ [v] }

/-- `running <- 0` (R19, R80). -/
def State.halt (s : State) : State := { s with running := false }

/-- `fl <- v` (R6, R18). -/
def State.setFlag (s : State) (f : Flag) : State := { s with fl := f }

/-- Where a push from this state stores: the decremented SP (R92). -/
def State.pushAddr (s : State) : Byte := s.sp - 1

/-- `push(v)` (R92): decrement SP modulo 256, then store at it. -/
def State.push (s : State) (v : Byte) : State := (s.setSp s.pushAddr).store s.pushAddr v

/-- `pop()` (R93): the byte at SP, and the state with SP incremented modulo 256; memory keeps the byte. -/
def State.pop (s : State) : Byte × State := (s.mem.read s.sp, s.setSp (s.sp + 1))

/-- The three fetch reads (R71), their addresses modulo 256 (R37). -/
def State.fetch (s : State) : Fetched where
  ir := s.mem.read s.pc
  opa := s.mem.read (s.pc + 1)
  opb := s.mem.read (s.pc + 2)

/-- The machine takes a step if and only if `running` is 1 and `fault` is empty (R70). -/
def State.canStep (s : State) : Bool := s.running && s.fault.isNone

/-- The numeric code of a cause (R120). -/
def causeCode : Cause → Nat
  | .invalidOpcode => 1
  | .registerIndexFault => 2
  | .unsupportedALUOperation => 3

/-- FAULT ENTRY (R126): `fault <- (c, pc, ir, opa, opb)`, and nothing else changes. Every check comes before every
write, so `pc` and the bytes at it are still those the step fetched: the record is read from the state itself
(DEDUCED, log entry 2). -/
def State.raise (s : State) (c : Cause) : State :=
  { s with fault := some ⟨c, s.pc, s.fetch.ir, s.fetch.opa, s.fetch.opb⟩ }

end Sys2Proof.Machine
end

