-- ==== Sys2Proof/Machine/Flags.lean ====
section
/-! DEFINITION. The flag computation: CMP's three-way unsigned compare (42_alu.md rule R88), the only one the spec
gives, the test JEQ and JNE make, and the bit pattern of each value (10_state.md rule R17). -/

namespace Sys2Proof.Machine

/-- The flag value CMP writes (R88): unsigned values 0 to 255, the first operand on the left. -/
def compareFlag (x y : Byte) : Flag :=
  if x.toNat < y.toNat then .less
  else if y.toNat < x.toNat then .greater
  else .equal

/-- `fl == EQUAL`, the only test an instruction makes of `fl` (R18, R103, R104). -/
def State.flagEqual (s : State) : Bool := decide (s.fl = .equal)

/-- The bit pattern `fl[2:0]` (R17): bit 2 is L, bit 1 is G, bit 0 is E. No instruction exposes it. -/
def flagBits : Flag → BitVec 3
  | .less => 0b100
  | .greater => 0b010
  | .equal => 0b001

end Sys2Proof.Machine
end

