-- ==== Sys2Proof/Machine/Operands.lean ====
section
/-! DEFINITION. Register operands: the byte that names a register (30_encoding.md rule R52) and the operand check that
stands before every handler (40_execution_loop.md rule R73). -/

namespace Sys2Proof.Machine

/-- The register a register byte names: its whole value is the index, and a value above 7 names none (R52; it is not
masked). -/
def regOf (b : Byte) : Option Reg :=
  if h : b.toNat < Config.nreg then some ⟨b.toNat, h⟩ else none

/-- The register byte that names a register (R51, R52: `00000rrr`). -/
def regByte (r : Reg) : Byte := BitVec.ofNat 8 r.val

/-- The operand check of an instruction with one register operand (R73), then its handler: a byte above 7 takes
`RegisterIndexFault` (R122) before the handler, so before any write. -/
def withReg (a : Byte) (s : State) (handler : Reg → State) : Host.Outcome State Fault Refusal :=
  match regOf a with
  | some r => .next (handler r)
  | none => .next (s.raise .registerIndexFault)

/-- The operand check of an instruction with two register operands (R73: `a` first, then `b`), then its handler. -/
def withRegs (a b : Byte) (s : State) (handler : Reg → Reg → State) : Host.Outcome State Fault Refusal :=
  match regOf a with
  | none => .next (s.raise .registerIndexFault)
  | some ra =>
    match regOf b with
    | none => .next (s.raise .registerIndexFault)
    | some rb => .next (handler ra rb)

end Sys2Proof.Machine
end

