-- ==== Sys2Proof/Machine/Alu.lean ====
section
/-! DEFINITION. The ALU as a block (42_alu.md rule R85) and the three instructions it carries out: ADD, MUL, CMP
(R86, R87, R88). -/

namespace Sys2Proof.Machine

/-- The ALU's operation tag (R85), with "any other tag" as a value so that the ALU's fourth outcome has a place
(R123). The machine's handlers give it the first three only. -/
inductive AluTag where
  | add
  | mul
  | cmp
  | other
deriving DecidableEq, Repr

/-- The sum modulo 256 (R86, R89). -/
def aluAdd (x y : Byte) : Byte := BitVec.ofNat 8 (x.toNat + y.toNat)

/-- The product modulo 256 (R87, R89). -/
def aluMul (x y : Byte) : Byte := BitVec.ofNat 8 (x.toNat * y.toNat)

/-- The ALU (R85): reads `x[a]` and `x[b]`; ADD and MUL write `x[a]`, CMP writes `fl`; it touches nothing else, `pc`
included. Another tag is the internal-invariant violation `UnsupportedALUOperation` (R123). -/
def alu (tag : AluTag) (a b : Reg) (s : State) : Except Cause State :=
  match tag with
  | .add => .ok (s.setReg a (aluAdd (s.reg a) (s.reg b)))
  | .mul => .ok (s.setReg a (aluMul (s.reg a) (s.reg b)))
  | .cmp => .ok (s.setFlag (compareFlag (s.reg a) (s.reg b)))
  | .other => .error .unsupportedALUOperation

/-- A handler that calls the ALU and then advances `pc` by 3 (R85: the increment is the handler's, not the ALU's); an
ALU error takes its fault (R123). -/
def aluHandler (tag : AluTag) (a b : Reg) (s : State) : State :=
  match alu tag a b s with
  | .ok t => t.advance 3
  | .error c => s.raise c

/-- ADD Ra, Rb (R86). -/
def execAdd (a b : Byte) (s : State) : Host.Outcome State Fault Refusal :=
  withRegs a b s fun ra rb => aluHandler .add ra rb s

/-- MUL Ra, Rb (R87). -/
def execMul (a b : Byte) (s : State) : Host.Outcome State Fault Refusal :=
  withRegs a b s fun ra rb => aluHandler .mul ra rb s

/-- CMP Ra, Rb (R88). -/
def execCmp (a b : Byte) (s : State) : Host.Outcome State Fault Refusal :=
  withRegs a b s fun ra rb => aluHandler .cmp ra rb s

end Sys2Proof.Machine
end

