-- ==== Sys2Proof/Machine/Control.lean ====
section
/-! DEFINITION. The control transfer instructions (44_control_transfer.md): CALL, RET, JMP, JEQ, JNE. -/

namespace Sys2Proof.Machine

/-- The return address of a CALL: `(pc + 2) mod 256` (R100). -/
def State.returnAddr (s : State) : Byte := s.pc + 2

/-- CALL Ra (R100): the return address is pushed first and `x[a]` is read afterwards, so CALL R7 jumps to the
decremented SP. -/
def execCall (a : Byte) (s : State) : Host.Outcome State Fault Refusal :=
  withReg a s fun r => (s.push s.returnAddr).jump ((s.push s.returnAddr).reg r)

/-- RET (R101). -/
def execRet (s : State) : Host.Outcome State Fault Refusal := .next (s.pop.2.jump s.pop.1)

/-- JMP Ra (R102). -/
def execJmp (a : Byte) (s : State) : Host.Outcome State Fault Refusal :=
  withReg a s fun r => s.jump (s.reg r)

/-- JEQ Ra (R103). -/
def execJeq (a : Byte) (s : State) : Host.Outcome State Fault Refusal :=
  withReg a s fun r => if s.flagEqual then s.jump (s.reg r) else s.advance 2

/-- JNE Ra (R104). -/
def execJne (a : Byte) (s : State) : Host.Outcome State Fault Refusal :=
  withReg a s fun r => if s.flagEqual then s.advance 2 else s.jump (s.reg r)

end Sys2Proof.Machine
end

