-- ==== Sys2Proof/Machine/Stack.lean ====
section
/-! DEFINITION. The stack instructions (43_stack.md): PUSH, POP. -/

namespace Sys2Proof.Machine

/-- PUSH Ra (R94): `x[a]` is read before SP is decremented, so PUSH R7 stores the old SP. -/
def execPush (a : Byte) (s : State) : Host.Outcome State Fault Refusal :=
  withReg a s fun r => (s.push (s.reg r)).advance 2

/-- POP Ra (R95): `x[a]` is written after SP is incremented, so POP R7 leaves SP the popped byte. -/
def execPop (a : Byte) (s : State) : Host.Outcome State Fault Refusal :=
  withReg a s fun r => (s.pop.2.setReg r s.pop.1).advance 2

end Sys2Proof.Machine
end

