-- ==== Sys2Proof/Machine/System.lean ====
section
/-! DEFINITION. The system and data instructions (41_system_and_data.md): HLT, LDI, PRN. -/

namespace Sys2Proof.Machine

/-- HLT (R80): `running <- 0`; `pc` keeps the address of the HLT itself. -/
def execHlt (s : State) : Host.Outcome State Fault Refusal := .next s.halt

/-- LDI Ra, imm (R81). -/
def execLdi (a imm : Byte) (s : State) : Host.Outcome State Fault Refusal :=
  withReg a s fun r => (s.setReg r imm).advance 3

/-- PRN Ra (R82). -/
def execPrn (a : Byte) (s : State) : Host.Outcome State Fault Refusal :=
  withReg a s fun r => (s.output (s.reg r)).advance 2

end Sys2Proof.Machine
end

