-- ==== Sys2Proof/Machine/Step.lean ====
section
/-! DEFINITION. The step (40_execution_loop.md rule R75): fetch, decode, operand check, dispatch; and the placing of
an instruction where the next step fetches. -/

namespace Sys2Proof.Machine

/-- One step (R70 to R75). A machine that may not step answers the name of what stopped it; an opcode byte that is
none of the 13 takes `InvalidOpcode` (R121); every other step is the instruction's meaning, which makes the operand
check of R73 first. -/
def step (s : State) : Host.Outcome State Fault Refusal :=
  match s.running, s.fault with
  | false, _ => .fault .halted
  | true, some _ => .fault .faultLatched
  | true, none =>
    match decode s.fetch.ir s.fetch.opa s.fetch.opb with
    | .invalidOpcode _ => .next (s.raise .invalidOpcode)
    | .insn i => exec i s

/-- `s` with the instruction of table word `w` at `pc`, `pc + 1` and `pc + 2`, where the next step fetches; only memory
changes, as in a LOAD (50_interfaces.md rule R112). -/
def State.withFetchWord (s : State) (nbits w : Nat) : State :=
  ((s.store s.pc (tableByte nbits w 0)).store (s.pc + 1) (tableByte nbits w 1)).store
    (s.pc + 2) (tableByte nbits w 2)

end Sys2Proof.Machine
end

