-- ==== Sys2Proof/Machine/Interface.lean ====
section
/-! DEFINITION. The interfaces of the block (50_interfaces.md): RESET, LOAD, RUN, the status the host reads, the line
the output sink prints, and the memory port as the list of a step's accesses. They are operations of the host on the
machine; no instruction uses them. -/

namespace Sys2Proof.Machine

/-- The bytes of a LOAD written at consecutive addresses (R112). -/
def loadBytes : List Nat → Nat → Memory → Memory
  | [], _, m => m
  | b :: bs, start, m => loadBytes bs (start + 1) (m.write (BitVec.ofNat 8 start) (BitVec.ofNat 8 b))

/-- What a LOAD requires (R112): it ends within memory, and its values are bytes. -/
def loadAllowed (bytes : List Nat) (start : Nat) : Bool :=
  decide (start + bytes.length ≤ Config.memSize) && bytes.all fun b => decide (b < 256)

/-- LOAD(bytes, start) (R112), `start` being 0 when not given: memory only; a LOAD that is not allowed is refused
whole (`none`) and writes nothing. -/
def State.load (s : State) (bytes : List Nat) (start : Nat := 0) : Option State :=
  if loadAllowed bytes start then some { s with mem := loadBytes bytes start s.mem } else none

/-- The state after at most `fuel` steps (R76, R113, R147: the executor runs under fuel): steps are taken until none
is possible. -/
def State.run : Nat → State → State
  | 0, s => s
  | fuel + 1, s =>
    match step s with
    | .next t => State.run fuel t
    | .fault _ => s
    | .refused _ => s

/-- What RUN gives the host within `fuel` steps (R113): the state at the end of the run, or nothing if the run has not
ended. -/
def State.runReturn (fuel : Nat) (s : State) : Option State :=
  if (s.run fuel).canStep then none else some (s.run fuel)

/-- The conditions the host distinguishes (R115). -/
inductive Status where
  /-- ready or running: steps are possible -/
  | ready
  /-- HLT executed: clean end of run -/
  | halted
  /-- fatal error: the latch names the cause -/
  | faulted
deriving DecidableEq, Repr

/-- The status of a state (R115). `running` 0 with the latch filled, which R115 says cannot occur, counts as faulted. -/
def State.status (s : State) : Status :=
  match s.fault, s.running with
  | some _, _ => .faulted
  | none, false => .halted
  | none, true => .ready

/-- The diagnostic of R115: `pc`, the three bytes at it, and the eight registers. -/
def State.diagnostic (s : State) : Byte × Fetched × List Byte := (s.pc, s.fetch, s.x.toList)

/-- The line the sink prints for a value (R114): decimal, no sign, no leading zeros, one newline (PRESUMED, log
entry 6). -/
def sinkLine (v : Byte) : String := toString v.toNat ++ "\n"

/-- A register as the source writes it: `R` and the index 0 to 7 (R63). For a register byte above 7, for which R63 gives
no text, the byte's value stands after the `R` (DESIGN CHOICE, log entry 17). -/
def asmReg (b : Byte) : String := "R" ++ toString b.toNat

/-- An instruction in the notation of R63: the mnemonic in capitals, then the operands separated by commas, an immediate
in decimal. A notation for people; the machine reads none of it. -/
def asmText : Instr → String
  | .hlt => "HLT"
  | .ldi a imm => "LDI " ++ asmReg a ++ "," ++ toString imm.toNat
  | .prn a => "PRN " ++ asmReg a
  | .add a b => "ADD " ++ asmReg a ++ "," ++ asmReg b
  | .mul a b => "MUL " ++ asmReg a ++ "," ++ asmReg b
  | .push a => "PUSH " ++ asmReg a
  | .pop a => "POP " ++ asmReg a
  | .call a => "CALL " ++ asmReg a
  | .ret => "RET"
  | .cmp a b => "CMP " ++ asmReg a ++ "," ++ asmReg b
  | .jmp a => "JMP " ++ asmReg a
  | .jeq a => "JEQ " ++ asmReg a
  | .jne a => "JNE " ++ asmReg a

/-- The block as its host uses it: its state, and whether a RUN has been issued since the last RESET (R112, R116). -/
structure Session where
  state : State
  runIssued : Bool
deriving DecidableEq, Repr

/-- RESET (R111): allowed in any state. -/
def Session.reset (_ : Session) : Session := { state := State.reset, runIssued := false }

/-- LOAD (R112): allowed only between RESET and RUN. -/
def Session.load (h : Session) (bytes : List Nat) (start : Nat := 0) : Option Session :=
  if h.runIssued then none
  else (h.state.load bytes start).map fun t => { state := t, runIssued := false }

/-- RUN (R113), as far as `fuel` steps take it; it continues from the current `pc` and resets nothing. -/
def Session.run (h : Session) (fuel : Nat) : Session :=
  { state := h.state.run fuel, runIssued := true }

/-- One access of the memory port: a read or a write of one byte (R33, R118). -/
inductive Access where
  | read (addr : Byte)
  | write (addr v : Byte)
deriving DecidableEq, Repr

/-- The access an instruction makes beyond the fetch (R32): at most one, and none when the operand check fails. -/
def handlerAccesses (i : Instr) (s : State) : List Access :=
  match i with
  | .push a => ((regOf a).map fun r => Access.write s.pushAddr (s.reg r)).toList
  | .call a => ((regOf a).map fun _ => Access.write s.pushAddr s.returnAddr).toList
  | .pop a => ((regOf a).map fun _ => Access.read s.sp).toList
  | .ret => [.read s.sp]
  | .hlt | .ldi _ _ | .prn _ | .add _ _ | .mul _ _ | .cmp _ _ | .jmp _ | .jeq _ | .jne _ => []

/-- The three fetch reads of a step (R32, R71). -/
def State.fetchAccesses (s : State) : List Access :=
  [.read s.pc, .read (s.pc + 1), .read (s.pc + 2)]

/-- The accesses of one step, in order (R32, R42, R118): the three fetch reads, then the handler's; a stopped machine
makes none (R70). -/
def stepAccesses (s : State) : List Access :=
  if s.canStep then
    s.fetchAccesses ++
      match decode s.fetch.ir s.fetch.opa s.fetch.opb with
      | .invalidOpcode _ => []
      | .insn i => handlerAccesses i s
  else []

/-- A memory after a list of accesses (R31: a read changes nothing). -/
def applyAccesses : List Access → Memory → Memory
  | [], m => m
  | .read _ :: l, m => applyAccesses l m
  | .write a v :: l, m => applyAccesses l (m.write a v)

end Sys2Proof.Machine
end

