-- ==== Sys2Proof/Safety.lean ====
section
/-! DEFINITION. The terms claims use: the end of a run (70_reset_and_hazards.md rule R146), the invariant of the
machine, which registers an instruction reads and writes (10_state.md rule R13), and the shape of a frame. -/

namespace Sys2Proof.Machine

/-- A run has ended cleanly (R146): halted, and no fault. -/
def State.CleanEnd (s : State) : Prop := s.running = false ∧ s.fault = none

/-- A run has ended by a fault (R146, R115). -/
def State.FaultEnd (s : State) : Prop := s.running = true ∧ s.fault.isSome = true

/-- What holds at reset and after every step: memory has its canonical form; a halted machine stands on its HLT with no
fault (R80, R115, R146); and a filled latch names the machine's own `pc` and the three bytes there (R115, R126), with a
cause those bytes justify (R121, R122), in a machine whose Running flag is still 1 (R20). -/
structure State.Inv (s : State) : Prop where
  memWf : s.mem.wf
  haltedOnHlt : s.running = false → s.fault = none ∧ s.mem.read s.pc = 0x01
  recordBytes : ∀ f, s.fault = some f → f.pc = s.pc ∧
    f.ir = s.mem.read s.pc ∧ f.opa = s.mem.read (s.pc + 1) ∧ f.opb = s.mem.read (s.pc + 2)
  recordCause : ∀ f, s.fault = some f →
    (f.cause = .invalidOpcode ∧ f.ir ∉ knownOpcodes) ∨
    (f.cause = .registerIndexFault ∧ ∃ i, decode f.ir f.opa f.opb = .insn i ∧ i.wf = false)

/-- The registers an instruction reads (R13); a jump reads its target only when it is taken, and an instruction that
fails the operand check reads none (R73). -/
def regsRead (i : Instr) (s : State) : List Reg :=
  if i.wf then
    match i with
    | .hlt | .ldi _ _ => []
    | .prn a | .jmp a => (regOf a).toList
    | .add a b | .mul a b | .cmp a b => (regOf a).toList ++ (regOf b).toList
    | .push a | .call a => Config.spIndex :: (regOf a).toList
    | .pop _ | .ret => [Config.spIndex]
    | .jeq a => if s.flagEqual then (regOf a).toList else []
    | .jne a => if s.flagEqual then [] else (regOf a).toList
  else []

/-- The registers an instruction writes (R13). -/
def regsWritten (i : Instr) : List Reg :=
  if i.wf then
    match i with
    | .ldi a _ | .add a _ | .mul a _ => (regOf a).toList
    | .push _ | .call _ | .ret => [Config.spIndex]
    | .pop a => Config.spIndex :: (regOf a).toList
    | .hlt | .prn _ | .cmp _ _ | .jmp _ | .jeq _ | .jne _ => []
  else []

/-- Every register outside a list holds what it held. -/
def RegsKept (s t : State) (written : List Reg) : Prop := ∀ r, r ∉ written → t.reg r = s.reg r

/-- Every cell outside a list of addresses reads as it did. -/
def CellsKept (s t : State) (stored : List Byte) : Prop :=
  ∀ a, a ∉ stored → t.mem.read a = s.mem.read a

/-- An instruction takes `RegisterIndexFault` before any write: the state is the one before, plus the record (R122,
R126). -/
def TakesRegisterFault (i : Instr) (s : State) : Prop :=
  ∃ f : FaultRecord, f.cause = .registerIndexFault ∧ f.pc = s.pc ∧ exec i s = .next { s with fault := some f }

/-- `fl`, `running`, `fault` and `out` hold what they held. -/
def ControlKept (s t : State) : Prop :=
  t.fl = s.fl ∧ t.running = s.running ∧ t.fault = s.fault ∧ t.out = s.out

/-- The outcome with its next state, if it has one, changed by a function. -/
def onNext (f : State → State) : Host.Outcome State Fault Refusal → Host.Outcome State Fault Refusal
  | .next s => .next (f s)
  | .fault e => .fault e
  | .refused e => .refused e

/-- The state with its output forgotten (R147: "taking `out` aside"). -/
def State.sansOut (s : State) : State := { s with out := [] }

end Sys2Proof.Machine
end

