-- ==== Sys2Proof/Certificates/Slice0/Obligations.lean ====
section
/-! DEFINITION. The statements for the provers, from the numbered rules of spec/. Each docstring names the rule it
formalises; where a clause rests on a choice the spec marks as its own (a decision D<n> of 92_eei_decisions.md, or a
"derived" note) the docstring names it. -/

open Sys2Proof Sys2Proof.Machine

/-! ### Reset, invariant, step -/

/-- What reset leaves (R26, R140; `fl` is EQUAL by the spec's decision D8, the zeros and the empty latch and output by
D9 and D10: log entry 4). -/
def Obligations.ResetLeavesTheZeroedMachine : Prop :=
  (∀ r, State.reset.reg r = 0) ∧ State.reset.sp = 0 ∧ State.reset.pc = 0 ∧ State.reset.fl = .equal ∧
    State.reset.running = true ∧ State.reset.fault = none ∧ (∀ a, State.reset.mem.read a = 0) ∧
    State.reset.out = []

/-- The invariant `State.Inv` holds at reset. -/
def Obligations.ResetSatisfiesTheMachineInvariant : Prop := State.reset.Inv

/-- A LOAD into a machine that satisfies `State.Inv` and may step leads to one that satisfies it. RESET gives such a
machine and a LOAD leaves one, so the invariant holds after RESET and any number of LOADs, where a program's run begins
(R110, R112, R142; the limits of LOAD are D15). -/
def Obligations.LoadedMachineSatisfiesTheInvariant : Prop :=
  ∀ (s t : State) (bytes : List Nat) (start : Nat), s.Inv → s.canStep = true →
    s.load bytes start = some t → t.Inv ∧ t.canStep = true

/-- Every step from a state that satisfies `State.Inv` leads to one that does: memory keeps its canonical form, a halted
machine stands on its HLT with no fault (R80, R146), a filled latch names the machine's `pc` and the bytes there with
a cause they justify, and `running` is still 1 (R20, R115, R126). -/
def Obligations.StepKeepsTheMachineInvariant : Prop :=
  ∀ s t : State, s.Inv → step s = .next t → t.Inv

/-- A step runs the instruction the decoder reads from the three bytes at `pc` (R71, R72, R74, R75). -/
def Obligations.StepRunsTheDecodedInstruction : Prop :=
  ∀ (s : State) (i : Instr), s.running = true → s.fault = none →
    decode (s.mem.read s.pc) (s.mem.read (s.pc + 1)) (s.mem.read (s.pc + 2)) = .insn i → step s = exec i s

/-- A machine that may step, with an instruction's encoding at `pc`, `pc + 1`, `pc + 2` modulo 256, runs that
instruction: whatever bytes follow the encoding take no part (R33, R51, R61, R71). -/
def Obligations.EncodedInstructionAtPcIsRun : Prop :=
  ∀ (s : State) (i : Instr), s.running = true → s.fault = none →
    (∀ (k : Nat) (b : Byte), (encode i)[k]? = some b → s.mem.read (s.pc + BitVec.ofNat 8 k) = b) →
    step s = exec i s

/-- The machine takes a step if and only if `running` is 1 and `fault` is empty (R70). Which named stop answers "no
step", in the last two clauses, is the model's choice (log entry 3). -/
def Obligations.StepIsTakenExactlyWhenRunningAndFaultFree : Prop :=
  ∀ s : State, ((∃ t, step s = .next t) ↔ s.running = true ∧ s.fault = none) ∧
    (s.running = false → step s = .fault .halted) ∧
    (s.running = true → s.fault ≠ none → step s = .fault .faultLatched)

/-- No handler faults: an instruction that passes the operand check completes with the latch as it was (R74, R124; that
arithmetic, stack and addresses wrap and do not fault is D1, D5, D6). -/
def Obligations.WellFormedInstructionCompletesWithoutFault : Prop :=
  ∀ (i : Instr) (s : State), i.wf = true → ∃ t, exec i s = .next t ∧ t.fault = s.fault

/-! ### Faults -/

/-- An opcode byte that is none of the 13 of R55 (D2) stops the step with `InvalidOpcode` (R121), recording the byte and
the `pc`, and both operand bytes whatever they are (R126; D10, D11), and nothing else changes; no step follows, which
the model answers by the stop `faultLatched` (its choice, log entry 3); an opcode byte of the 13 never raises it. -/
def Obligations.UnknownOpcodeRaisesInvalidOpcode : Prop :=
  ∀ s : State, s.running = true → s.fault = none →
    (s.mem.read s.pc ∉ ([0x01, 0x11, 0x45, 0x46, 0x47, 0x50, 0x54, 0x55, 0x56, 0x82, 0xA0, 0xA2, 0xA7] : List Byte) →
      ∃ t, step s = .next t ∧ step t = .fault .faultLatched ∧ t =
        { s with fault := some ⟨.invalidOpcode, s.pc, s.mem.read s.pc, s.mem.read (s.pc + 1), s.mem.read (s.pc + 2)⟩ }) ∧
    (s.mem.read s.pc ∈ ([0x01, 0x11, 0x45, 0x46, 0x47, 0x50, 0x54, 0x55, 0x56, 0x82, 0xA0, 0xA2, 0xA7] : List Byte) →
      ∀ t f, step s = .next t → t.fault = some f → f.cause ≠ .invalidOpcode)

/-- The operand check (R73, R122): with one of the eleven opcodes that use `a` and `opa` above 7, or one of the three
that use `b` and `opb` above 7, the step takes `RegisterIndexFault` and changes nothing else; in every other case it
does not. The check is the spec's decisions D4 and D12. -/
def Obligations.RegisterByteAboveSevenFaults : Prop :=
  ∀ s : State, s.running = true → s.fault = none →
    let ir := s.mem.read s.pc
    let opa := s.mem.read (s.pc + 1)
    let opb := s.mem.read (s.pc + 2)
    let bad := (ir ∈ ([0x45, 0x46, 0x47, 0x50, 0x54, 0x55, 0x56, 0x82, 0xA0, 0xA2, 0xA7] : List Byte) ∧ 8 ≤ opa.toNat) ∨
      (ir ∈ ([0xA0, 0xA2, 0xA7] : List Byte) ∧ 8 ≤ opb.toNat)
    (bad → step s = .next { s with fault := some ⟨.registerIndexFault, s.pc, ir, opa, opb⟩ }) ∧
    (¬ bad → ∀ t f, step s = .next t → t.fault = some f → f.cause ≠ .registerIndexFault)

/-- Faults are precise (R126; D10): a step that fills the latch changes nothing else, and the record holds the `pc` and
the three bytes of that step; its code is 1 or 2, so `UnsupportedALUOperation`, code 3, is never raised (R123; D11,
D20). -/
def Obligations.FaultsArePreciseAndNeverTheAlus : Prop :=
  ∀ (s t : State) (f : FaultRecord), step s = .next t → t.fault = some f →
    t = { s with fault := some f } ∧ f.pc = s.pc ∧ f.ir = s.mem.read s.pc ∧ f.opa = s.mem.read (s.pc + 1) ∧
      f.opb = s.mem.read (s.pc + 2) ∧ (causeCode f.cause = 1 ∨ causeCode f.cause = 2)

/-- The ALU as a block (R85, R123; D1, D20, D22): ADD writes the sum and MUL the product modulo 256 to `x[a]` and
nothing else, CMP writes the unsigned order of `x[a]` and `x[b]` to `fl` and nothing else, none fails and none touches
`pc`; any other tag, which is the model's own value (log entry 10), is `UnsupportedALUOperation`. -/
def Obligations.AluWritesOneResultAndLeavesPc : Prop :=
  ∀ (a b : Reg) (s : State),
    (∃ t, alu .add a b s = .ok t ∧ t.reg a = aluAdd (s.reg a) (s.reg b) ∧
      (t.reg a).toNat = ((s.reg a).toNat + (s.reg b).toNat) % 256 ∧
      RegsKept s t [a] ∧ CellsKept s t [] ∧ t.pc = s.pc ∧ ControlKept s t) ∧
    (∃ t, alu .mul a b s = .ok t ∧ t.reg a = aluMul (s.reg a) (s.reg b) ∧
      (t.reg a).toNat = ((s.reg a).toNat * (s.reg b).toNat) % 256 ∧
      RegsKept s t [a] ∧ CellsKept s t [] ∧ t.pc = s.pc ∧ ControlKept s t) ∧
    (∃ t, alu .cmp a b s = .ok t ∧ t.fl = compareFlag (s.reg a) (s.reg b) ∧
      (t.fl = .less ↔ (s.reg a).toNat < (s.reg b).toNat) ∧
      (t.fl = .greater ↔ (s.reg b).toNat < (s.reg a).toNat) ∧ (t.fl = .equal ↔ s.reg a = s.reg b) ∧
      RegsKept s t [] ∧ CellsKept s t [] ∧ t.pc = s.pc ∧ t.running = s.running ∧
      t.fault = s.fault ∧ t.out = s.out) ∧
    alu .other a b s = .error .unsupportedALUOperation

/-! ### Encoding -/

/-- Decoding the encoding of an instruction, with any bytes after it, gives the instruction back: every instruction,
every operand byte (R33, R50, R51, R72). -/
def Obligations.DecodeOfEncodeIsTheInstruction : Prop :=
  ∀ (i : Instr) (after tail : List Byte) (ir opa opb : Byte),
    encode i ++ after = ir :: opa :: opb :: tail → decode ir opa opb = .insn i

/-- An instruction the decoder reads encodes to the bytes it was read from, as many as bits 7:6 of the opcode say
(R50, R57, R58; D3). -/
def Obligations.DecodedInstructionEncodesToItsBytes : Prop :=
  ∀ (ir opa opb : Byte) (i : Instr), decode ir opa opb = .insn i →
    encode i = [ir, opa, opb].take i.length ∧ i.length = 1 + ir.toNat / 64

/-- The decoder's table, all 256 opcode bytes (R55, R59, R72; the values of twelve opcodes are D2). -/
def Obligations.OpcodeBytesDecodeAsTheTableSays : Prop :=
  ∀ a b : Byte,
    decode 0x01 a b = .insn .hlt ∧ decode 0x11 a b = .insn .ret ∧ decode 0x45 a b = .insn (.push a) ∧
    decode 0x46 a b = .insn (.pop a) ∧ decode 0x47 a b = .insn (.prn a) ∧ decode 0x50 a b = .insn (.call a) ∧
    decode 0x54 a b = .insn (.jmp a) ∧ decode 0x55 a b = .insn (.jeq a) ∧ decode 0x56 a b = .insn (.jne a) ∧
    decode 0x82 a b = .insn (.ldi a b) ∧ decode 0xA0 a b = .insn (.add a b) ∧ decode 0xA2 a b = .insn (.mul a b) ∧
    decode 0xA7 a b = .insn (.cmp a b) ∧
    ∀ ir : Byte, ir ∉ ([0x01, 0x11, 0x45, 0x46, 0x47, 0x50, 0x54, 0x55, 0x56, 0x82, 0xA0, 0xA2, 0xA7] : List Byte) →
      decode ir a b = .invalidOpcode ir

/-- Operand bytes an instruction does not use are ignored completely (R61; D19): changing them does not change what is
decoded. -/
def Obligations.UnusedOperandBytesAreIgnored : Prop :=
  ∀ (ir opa opb opa' opb' : Byte) (i : Instr), decode ir opa opb = .insn i →
    (i.length = 1 → decode ir opa' opb' = .insn i) ∧ (i.length = 2 → decode ir opa opb' = .insn i)

/-! ### System and data instructions -/

/-- HLT (R80): `running` becomes 0, `pc` keeps the address of the HLT, nothing else changes, and no further step
happens; that the model answers this by the stop `halted` is its choice (log entry 3). -/
def Obligations.HltClearsRunningAndStays : Prop :=
  ∀ s : State, encode .hlt = [0x01] ∧ (∀ a b, decode 0x01 a b = .insn .hlt) ∧
    ∃ t, exec .hlt s = .next t ∧ t.running = false ∧ t.pc = s.pc ∧ RegsKept s t [] ∧ CellsKept s t [] ∧
      t.fl = s.fl ∧ t.fault = s.fault ∧ t.out = s.out ∧ step t = .fault .halted

/-- R81, LDI: `x[a]` becomes the immediate, for all eight registers and all immediates, and `pc` advances by 3 modulo
256; a register byte above 7 faults before any write, and no immediate does. -/
def Obligations.LdiLoadsItsImmediate : Prop :=
  ∀ (s : State) (imm : Byte), (∀ a, encode (.ldi a imm) = [0x82, a, imm]) ∧
    (∀ r : Reg, ∃ t, exec (.ldi (regByte r) imm) s = .next t ∧ t.reg r = imm ∧
      t.pc.toNat = (s.pc.toNat + 3) % 256 ∧ RegsKept s t [r] ∧ CellsKept s t [] ∧ ControlKept s t) ∧
    (∀ a : Byte, 8 ≤ a.toNat → TakesRegisterFault (.ldi a imm) s)

/-- R82, PRN: the value of `x[a]` is appended to the output and `pc` advances by 2 modulo 256; nothing else changes. -/
def Obligations.PrnAppendsItsRegisterToTheOutput : Prop :=
  ∀ s : State, (∀ a, encode (.prn a) = [0x47, a]) ∧
    (∀ r : Reg, ∃ t, exec (.prn (regByte r)) s = .next t ∧ t.out = s.out ++ [s.reg r] ∧
      t.pc.toNat = (s.pc.toNat + 2) % 256 ∧ RegsKept s t [] ∧ CellsKept s t [] ∧ t.fl = s.fl ∧
      t.running = s.running ∧ t.fault = s.fault) ∧
    (∀ a : Byte, 8 ≤ a.toNat → TakesRegisterFault (.prn a) s)

/-! ### ALU instructions -/

/-- R86, ADD: `x[a]` becomes the sum modulo 256 (the wrap is D1), also when `a` and `b` are one register; no flag
changes; `pc` advances by 3 modulo 256. -/
def Obligations.AddWritesTheSumModulo256 : Prop :=
  ∀ s : State,
    (∀ a b : Reg, ∃ t, exec (.add (regByte a) (regByte b)) s = .next t ∧
      (t.reg a).toNat = ((s.reg a).toNat + (s.reg b).toNat) % 256 ∧
      t.pc.toNat = (s.pc.toNat + 3) % 256 ∧ RegsKept s t [a] ∧ CellsKept s t [] ∧ ControlKept s t) ∧
    (∀ a b : Byte, 8 ≤ a.toNat ∨ 8 ≤ b.toNat → TakesRegisterFault (.add a b) s)

/-- R87, MUL: `x[a]` becomes the product modulo 256 (the wrap is D1); no flag changes; `pc` advances by 3 modulo
256. -/
def Obligations.MulWritesTheProductModulo256 : Prop :=
  ∀ s : State,
    (∀ a b : Reg, ∃ t, exec (.mul (regByte a) (regByte b)) s = .next t ∧
      (t.reg a).toNat = ((s.reg a).toNat * (s.reg b).toNat) % 256 ∧
      t.pc.toNat = (s.pc.toNat + 3) % 256 ∧ RegsKept s t [a] ∧ CellsKept s t [] ∧ ControlKept s t) ∧
    (∀ a b : Byte, 8 ≤ a.toNat ∨ 8 ≤ b.toNat → TakesRegisterFault (.mul a b) s)

/-- R88, CMP: `fl` becomes LESS, GREATER or EQUAL as the unsigned values order (D22), whatever it was; no register
changes; `pc` advances by 3 modulo 256. -/
def Obligations.CmpSetsTheFlagsByUnsignedOrder : Prop :=
  ∀ s : State,
    (∀ a b : Reg, ∃ t, exec (.cmp (regByte a) (regByte b)) s = .next t ∧
      (t.fl = .less ↔ (s.reg a).toNat < (s.reg b).toNat) ∧
      (t.fl = .greater ↔ (s.reg b).toNat < (s.reg a).toNat) ∧
      (t.fl = .equal ↔ s.reg a = s.reg b) ∧
      t.pc.toNat = (s.pc.toNat + 3) % 256 ∧ RegsKept s t [] ∧ CellsKept s t [] ∧
      t.running = s.running ∧ t.fault = s.fault ∧ t.out = s.out) ∧
    (∀ a b : Byte, 8 ≤ a.toNat ∨ 8 ≤ b.toNat → TakesRegisterFault (.cmp a b) s)

/-! ### Stack instructions -/

/-- R94, PUSH: SP decreases by 1 modulo 256 and the cell at the new SP receives the value `x[a]` had before the
instruction (for `a = 7`, the old SP); no other cell and no other register changes; `pc` advances by 2 modulo 256. -/
def Obligations.PushStoresBelowTheStackPointer : Prop :=
  ∀ s : State, (∀ a, encode (.push a) = [0x45, a]) ∧ s.pushAddr.toNat = (s.sp.toNat + 255) % 256 ∧
    (∀ r : Reg, ∃ t, exec (.push (regByte r)) s = .next t ∧ t.sp = s.pushAddr ∧
      t.mem.read s.pushAddr = s.reg r ∧ t.pc.toNat = (s.pc.toNat + 2) % 256 ∧
      RegsKept s t [7] ∧ CellsKept s t [s.pushAddr] ∧ ControlKept s t) ∧
    (∀ a : Byte, 8 ≤ a.toNat → TakesRegisterFault (.push a) s)

/-- R95, POP: `x[a]` becomes the byte at SP and SP increases by 1 modulo 256 (D6); for `a = 7` the popped byte wins
(D13); memory does not change; `pc` advances by 2 modulo 256. -/
def Obligations.PopLoadsFromTheStackPointer : Prop :=
  ∀ s : State,
    (∀ r : Reg, ∃ t, exec (.pop (regByte r)) s = .next t ∧ t.reg r = s.mem.read s.sp ∧
      (r ≠ 7 → t.sp.toNat = (s.sp.toNat + 1) % 256) ∧ t.pc.toNat = (s.pc.toNat + 2) % 256 ∧
      RegsKept s t [7, r] ∧ CellsKept s t [] ∧ ControlKept s t) ∧
    (∀ a : Byte, 8 ≤ a.toNat → TakesRegisterFault (.pop a) s)

/-! ### Control transfer -/

/-- R100, CALL: the address `(pc + 2) mod 256` (D5) is pushed and `pc` becomes `x[a]`, read after the push, so that
CALL R7 jumps to the decremented SP (D13); no other cell and no other register changes. -/
def Obligations.CallPushesTheReturnAddressAndJumps : Prop :=
  ∀ s : State, s.pushAddr.toNat = (s.sp.toNat + 255) % 256 ∧
    (∀ r : Reg, ∃ t, exec (.call (regByte r)) s = .next t ∧ t.sp = s.pushAddr ∧
      (t.mem.read s.pushAddr).toNat = (s.pc.toNat + 2) % 256 ∧
      (r ≠ 7 → t.pc = s.reg r) ∧ (r = 7 → t.pc = s.pushAddr) ∧
      RegsKept s t [7] ∧ CellsKept s t [s.pushAddr] ∧ ControlKept s t) ∧
    (∀ a : Byte, 8 ≤ a.toNat → TakesRegisterFault (.call a) s)

/-- R101, RET: `pc` becomes the byte at SP and SP increases by 1 modulo 256; memory and the other registers do not
change. -/
def Obligations.RetPopsTheProgramCounter : Prop :=
  ∀ s : State, encode .ret = [0x11] ∧ (∀ a b, decode 0x11 a b = .insn .ret) ∧
    ∃ t, exec .ret s = .next t ∧ t.pc = s.mem.read s.sp ∧ t.sp.toNat = (s.sp.toNat + 1) % 256 ∧
      RegsKept s t [7] ∧ CellsKept s t [] ∧ ControlKept s t

/-- R102, JMP: `pc` becomes `x[a]` and nothing else changes. -/
def Obligations.JmpSetsTheProgramCounter : Prop :=
  ∀ s : State, (∀ a, encode (.jmp a) = [0x54, a]) ∧
    (∀ r : Reg, ∃ t, exec (.jmp (regByte r)) s = .next t ∧ t.pc = s.reg r ∧
      RegsKept s t [] ∧ CellsKept s t [] ∧ ControlKept s t) ∧
    (∀ a : Byte, 8 ≤ a.toNat → TakesRegisterFault (.jmp a) s)

/-- R103, JEQ: taken exactly when `fl` is EQUAL, else `pc` advances by 2 modulo 256 (D5); nothing else changes, `fl`
included. -/
def Obligations.JeqBranchesExactlyOnEqual : Prop :=
  ∀ s : State,
    (∀ r : Reg, ∃ t, exec (.jeq (regByte r)) s = .next t ∧ (s.fl = .equal → t.pc = s.reg r) ∧
      (s.fl ≠ .equal → t.pc.toNat = (s.pc.toNat + 2) % 256) ∧
      RegsKept s t [] ∧ CellsKept s t [] ∧ ControlKept s t) ∧
    (∀ a : Byte, 8 ≤ a.toNat → TakesRegisterFault (.jeq a) s)

/-- R104, JNE: taken exactly when `fl` is not EQUAL, else `pc` advances by 2 modulo 256 (D5); nothing else changes,
`fl` included. -/
def Obligations.JneBranchesExactlyOnNotEqual : Prop :=
  ∀ s : State,
    (∀ r : Reg, ∃ t, exec (.jne (regByte r)) s = .next t ∧ (s.fl ≠ .equal → t.pc = s.reg r) ∧
      (s.fl = .equal → t.pc.toNat = (s.pc.toNat + 2) % 256) ∧
      RegsKept s t [] ∧ CellsKept s t [] ∧ ControlKept s t) ∧
    (∀ a : Byte, 8 ≤ a.toNat → TakesRegisterFault (.jne a) s)

/-! ### Rules of the whole machine -/

/-- R18: `fl` is written by CMP and by nothing else, each CMP replaces all of it, and it is read by JEQ and JNE and by
nothing else, which do not tell LESS from GREATER. "Read" is said by running an instruction on two states that differ
in `fl` alone. -/
def Obligations.FlagsAreWrittenByCmpAndReadByJeqJne : Prop :=
  (∀ (s t : State), step s = .next t → t.fl ≠ s.fl →
    ∃ a b, decode (s.mem.read s.pc) (s.mem.read (s.pc + 1)) (s.mem.read (s.pc + 2)) = .insn (.cmp a b)) ∧
  (∀ (a b : Reg) (s : State) (f : Flag),
    exec (.cmp (regByte a) (regByte b)) (s.setFlag f) = exec (.cmp (regByte a) (regByte b)) s) ∧
  (∀ (i : Instr) (s : State) (f g : Flag), (∀ a, i ≠ .jeq a ∧ i ≠ .jne a) →
    onNext (State.setFlag · g) (exec i (s.setFlag f)) = onNext (State.setFlag · g) (exec i s)) ∧
  (∀ (i : Instr) (s : State) (g : Flag),
    onNext (State.setFlag · g) (exec i (s.setFlag .less)) = onNext (State.setFlag · g) (exec i (s.setFlag .greater)))

/-- R19: the Running flag is true at reset, cleared by HLT and by nothing else, set by no step, and read by no
instruction; while it is 0 no step happens. -/
def Obligations.RunningIsClearedByHltAlone : Prop :=
  State.reset.running = true ∧
  (∀ (i : Instr) (s t : State), exec i s = .next t →
    (i = .hlt → t.running = false) ∧ (i ≠ .hlt → t.running = s.running)) ∧
  (∀ s t : State, step s = .next t → t.running = false →
    decode (s.mem.read s.pc) (s.mem.read (s.pc + 1)) (s.mem.read (s.pc + 2)) = .insn .hlt) ∧
  (∀ (i : Instr) (s : State) (r q : Bool),
    onNext (fun t => { t with running := q }) (exec i { s with running := r }) =
      onNext (fun t => { t with running := q }) (exec i s)) ∧
  (∀ s : State, s.running = false → ∀ t, step s ≠ .next t)

/-- R25: the output is empty at reset, only ever appended to, by one value of a PRN at a time, and never read by the
machine. -/
def Obligations.OutputIsAppendedByPrnAndNeverRead : Prop :=
  State.reset.out = [] ∧
  (∀ s t : State, step s = .next t → t.out = s.out ∨
    ∃ r : Reg, decode (s.mem.read s.pc) (s.mem.read (s.pc + 1)) (s.mem.read (s.pc + 2)) = .insn (.prn (regByte r)) ∧
      t.out = s.out ++ [s.reg r]) ∧
  (∀ s : State, onNext State.sansOut (step s) = onNext State.sansOut (step s.sansOut))

/-- The "writes" column of R13 (derived in the spec): an instruction changes no register outside it. -/
def Obligations.OnlyListedRegistersAreWritten : Prop :=
  ∀ (i : Instr) (s t : State), exec i s = .next t → RegsKept s t (regsWritten i)

/-- The "reads" column of R13 (derived in the spec): what a register outside it holds changes nothing about an
instruction's outcome but that register's own value, and not even that if the instruction writes it. -/
def Obligations.OnlyListedRegistersAreRead : Prop :=
  ∀ (i : Instr) (s : State) (r : Reg) (v : Byte), r ∉ regsRead i s →
    (r ∈ regsWritten i → exec i (s.setReg r v) = exec i s) ∧
    (r ∉ regsWritten i → exec i (s.setReg r v) = onNext (State.setReg · r v) (exec i s))

/-- R31: after any writes in order, a read returns the value of the most recent write to its address, or what the cell
held if there was none, which is 0 after reset; a write changes no other cell, and a read changes nothing. -/
def Obligations.MemoryReadsTheMostRecentWrite : Prop :=
  (∀ a, State.reset.mem.read a = 0x00) ∧
  ∀ (m : Memory) (writes : List (Byte × Byte)) (a : Byte),
    (writes.foldl (fun m w => m.write w.1 w.2) m).read a =
      ((writes.reverse.find? fun w => decide (w.1 = a)).map (·.2)).getD (m.read a)

/-- The memory port (R32, R42, R118; derived, D17, D21 in the spec): a step makes the three fetch reads and at most one
access more, and memory after it is memory before it with exactly the listed writes. -/
def Obligations.StepMakesExactlyTheListedAccesses : Prop :=
  ∀ s t : State, step s = .next t →
    (∃ more, stepAccesses s = [.read s.pc, .read (s.pc + 1), .read (s.pc + 2)] ++ more ∧ more.length ≤ 1) ∧
      t.mem = applyAccesses (stepAccesses s) s.mem

/-- The list of R32 is complete for reads too: a cell the step does not read has no influence on it (canonical memory
is needed for equal data, log entry 5; `Inv` keeps it). -/
def Obligations.StepDependsOnNoCellItDoesNotRead : Prop :=
  ∀ (s : State) (a v : Byte), s.mem.wf → Access.read a ∉ stepAccesses s →
    ((∀ w, Access.write a w ∉ stepAccesses s) → step (s.store a v) = onNext (State.store · a v) (step s)) ∧
    (∀ w, Access.write a w ∈ stepAccesses s → step (s.store a v) = step s)

/-- Stores are coherent with the very next fetch (R41, derived in the spec): the byte an instruction stores at an
address is the byte the next fetch reads there, as opcode or as operand byte. -/
def Obligations.StoreIsSeenByTheNextFetch : Prop :=
  ∀ (i : Instr) (s t : State) (a v : Byte), exec i s = .next t → Access.write a v ∈ handlerAccesses i s →
    (a = t.pc → t.fetch.ir = v) ∧ (a = t.pc + 1 → t.fetch.opa = v) ∧ (a = t.pc + 2 → t.fetch.opb = v)

/-- The stack round trip (R94, R95 corner cases, property 3 of the source as 90_conflicts.md C6 settles it): PUSH Ra
then POP Rb leaves the original `x[a]` in `x[b]`, and every register but `x[b]` as it was, so SP is restored unless
`b = 7`. -/
def Obligations.PushThenPopCopiesTheRegister : Prop :=
  ∀ (s : State) (a b : Reg), ∃ t u, exec (.push (regByte a)) s = .next t ∧ exec (.pop (regByte b)) t = .next u ∧
    u.reg b = s.reg a ∧ RegsKept s u [b] ∧ CellsKept s u [s.pushAddr] ∧ u.pc.toNat = (s.pc.toNat + 4) % 256 ∧
    ControlKept s u

/-- Call and return balance (R106, property 4 of the source): a RET in any later state whose SP is the one the CALL left
and whose cell there still holds what the CALL stored resumes after the CALL, with SP restored. -/
def Obligations.RetResumesAfterItsCall : Prop :=
  ∀ (s : State) (r : Reg), ∃ t, exec (.call (regByte r)) s = .next t ∧
    ∀ u : State, u.sp = t.sp → u.mem.read u.sp = t.mem.read t.sp →
      ∃ v, exec .ret u = .next v ∧ v.pc.toNat = (s.pc.toNat + 2) % 256 ∧ v.sp = s.sp ∧ RegsKept u v [7]

/-! ### The host's interface -/

/-- LOAD (R112; its limits are D15): when it is allowed its bytes stand at consecutive addresses from `start`, every
other cell and all other state are as before; otherwise it is refused whole. -/
def Obligations.LoadWritesItsBytesOrIsRefusedWhole : Prop :=
  ∀ (s : State) (bytes : List Nat) (start : Nat),
    (start + bytes.length ≤ 256 ∧ (∀ b ∈ bytes, b < 256) →
      ∃ m : Memory, s.load bytes start = some { s with mem := m } ∧
        (∀ (k b : Nat), bytes[k]? = some b → (m.read (BitVec.ofNat 8 (start + k))).toNat = b) ∧
        (∀ a : Byte, a.toNat < start ∨ start + bytes.length ≤ a.toNat → m.read a = s.mem.read a)) ∧
    (¬ (start + bytes.length ≤ 256 ∧ ∀ b ∈ bytes, b < 256) → s.load bytes start = none)

/-- A stopped machine stays as it is under RUN and LOAD, and RESET starts it afresh from any state (R111, R113, R127;
D15, D16; the record of whether a RUN was issued is the model's, log entry 11, and so is the fuel, log entry 12). -/
def Obligations.OnlyResetLeavesAStoppedMachine : Prop :=
  ∀ h : Session, (h.reset.state = State.reset ∧ h.reset.state.canStep = true ∧
      ∀ bytes start, h.reset.load bytes start ≠ none ↔ State.reset.load bytes start ≠ none) ∧
    (∀ fuel, h.state.canStep = false → (h.run fuel).state = h.state) ∧
    (∀ fuel bytes start, (h.run fuel).load bytes start = none)

/-- The three conditions of R115 tell the states that satisfy the invariant apart. -/
def Obligations.StatusNamesTheCondition : Prop :=
  ∀ s : State, s.Inv → (s.status = .ready ↔ s.canStep = true) ∧ (s.status = .halted ↔ s.CleanEnd) ∧
    (s.status = .faulted ↔ s.FaultEnd)

/-- The end of a run (R76, R113, R146, derived in the spec): once no step is possible more fuel changes nothing, and the
run has ended cleanly, standing on a HLT, or by a fault. The fuel is the model's choice (log entry 12). -/
def Obligations.EndedRunIsCleanOrFaulted : Prop :=
  ∀ (s : State) (n : Nat), s.Inv → (s.run n).canStep = false →
    (∀ k, s.run (n + k) = s.run n) ∧
      (((s.run n).CleanEnd ∧ (s.run n).mem.read (s.run n).pc = 0x01) ∨ (s.run n).FaultEnd)

/-- A run that does not end revisits a state, taking `out` aside, and from then on repeats (R147). The runs are those of
the executor under fuel (log entry 12); the canonical form of memory, a premise that `State.Inv` gives, makes cells that
read the same equal data (the model's choice, log entry 5). -/
def Obligations.EndlessRunRepeatsUpToItsOutput : Prop :=
  ∀ s : State, s.mem.wf → (∀ n, (s.run n).canStep = true) →
    ∃ m n, m < n ∧ ∀ k, (s.run (m + k)).sansOut = (s.run (n + k)).sansOut
end

