-- ==== Sys2Proof/Laws/Memory.lean ====
section
/-! SUPPORT. The laws of memory: a read after a write, the canonical form kept, and equal reads making equal data. -/

namespace Sys2Proof.Machine

theorem lookupAt_eq_zeroInit_of_forall_ne {m : Memory} {a : Nat} (h : ∀ c ∈ m, c.1 ≠ a) :
    m.lookupAt a = Config.zeroInit := by
  induction m with
  | nil => rfl
  | cons c m ih =>
    have hc : c.1 ≠ a := h c (by simp)
    simpa [Memory.lookupAt, hc] using ih fun d hd => h d (by simp [hd])

theorem ne_of_mem_dropAt {m : Memory} {a : Nat} {c : Host.Cell} (h : c ∈ m.dropAt a) : c.1 ≠ a := by
  simpa using (List.mem_filter.1 h).2

theorem mem_of_mem_dropAt {m : Memory} {a : Nat} {c : Host.Cell} (h : c ∈ m.dropAt a) : c ∈ m :=
  (List.mem_filter.1 h).1

theorem lookupAt_dropAt_same (m : Memory) (a : Nat) : (m.dropAt a).lookupAt a = Config.zeroInit :=
  lookupAt_eq_zeroInit_of_forall_ne fun _ h => ne_of_mem_dropAt h

theorem lookupAt_dropAt_other (m : Memory) {a b : Nat} (h : b ≠ a) :
    (m.dropAt a).lookupAt b = m.lookupAt b := by
  induction m with
  | nil => rfl
  | cons c m ih =>
    by_cases hc : c.1 = a
    · have hb : c.1 ≠ b := fun e => h (e.symm.trans hc)
      simpa [Memory.dropAt, List.filter_cons, hc, Memory.lookupAt, hb, h.symm] using ih
    · simp only [Memory.dropAt, List.filter_cons, ne_eq, hc, not_false_eq_true, decide_true, if_true,
        Memory.lookupAt] at ih ⊢
      rw [ih]

theorem lookupAt_insertAt_same {m : Memory} {a : Nat} (v : Byte) (h : ∀ c ∈ m, c.1 ≠ a) :
    (m.insertAt a v).lookupAt a = v := by
  induction m with
  | nil => simp [Memory.insertAt, Memory.lookupAt]
  | cons c m ih =>
    have hc : c.1 ≠ a := h c (by simp)
    by_cases hlt : a < c.1
    · simp [Memory.insertAt, hlt, Memory.lookupAt]
    · simpa [Memory.insertAt, hlt, Memory.lookupAt, hc] using ih fun d hd => h d (by simp [hd])

theorem lookupAt_insertAt_other (m : Memory) {a b : Nat} (v : Byte) (h : b ≠ a) :
    (m.insertAt a v).lookupAt b = m.lookupAt b := by
  induction m with
  | nil => simp [Memory.insertAt, Memory.lookupAt, h.symm]
  | cons c m ih =>
    by_cases hlt : a < c.1
    · simp [Memory.insertAt, hlt, Memory.lookupAt, h.symm]
    · simp [Memory.insertAt, hlt, Memory.lookupAt, ih]

/-- A read of the written address gives the written value. -/
@[simp] theorem Memory.read_write_same (m : Memory) (a v : Byte) : (m.write a v).read a = v := by
  unfold Memory.write Memory.read
  split
  · next h => rw [lookupAt_dropAt_same, h]
  · exact lookupAt_insertAt_same v fun _ h => ne_of_mem_dropAt h

/-- A write changes no other address. -/
theorem Memory.read_write_other (m : Memory) {a b : Byte} (v : Byte) (h : b ≠ a) :
    (m.write a v).read b = m.read b := by
  have hn : b.toNat ≠ a.toNat := fun e => h (BitVec.eq_of_toNat_eq e)
  unfold Memory.write Memory.read
  split
  · exact lookupAt_dropAt_other m hn
  · rw [lookupAt_insertAt_other _ v hn, lookupAt_dropAt_other m hn]

/-- Both cases of a read after a write. -/
theorem Memory.read_write (m : Memory) (a b v : Byte) :
    (m.write a v).read b = if b = a then v else m.read b := by
  by_cases h : b = a
  · simp [h]
  · simp [h, Memory.read_write_other m v h]

@[simp] theorem Memory.read_nil (a : Byte) : Memory.read [] a = Config.zeroInit := rfl

theorem mem_insertAt {m : Memory} {a : Nat} {v : Byte} {c : Host.Cell} :
    c ∈ m.insertAt a v ↔ c = (a, v) ∨ c ∈ m := by
  induction m with
  | nil => simp [Memory.insertAt]
  | cons d m ih =>
    by_cases hlt : a < d.1
    · simp [Memory.insertAt, hlt]
    · simp only [Memory.insertAt, hlt, if_false, List.mem_cons, ih]
      tauto

theorem insertAt_pairwise {m : Memory} {a : Nat} (v : Byte)
    (hm : m.Pairwise fun c d => c.1 < d.1) (ha : ∀ c ∈ m, c.1 ≠ a) :
    (m.insertAt a v).Pairwise fun c d => c.1 < d.1 := by
  induction m with
  | nil => simp [Memory.insertAt]
  | cons c m ih =>
    obtain ⟨hc, hm'⟩ := List.pairwise_cons.1 hm
    by_cases hlt : a < c.1
    · rw [Memory.insertAt, if_pos hlt]
      refine List.pairwise_cons.2 ⟨fun d hd => ?_, hm⟩
      rcases List.mem_cons.1 hd with rfl | hd
      · exact hlt
      · exact hlt.trans (hc d hd)
    · rw [Memory.insertAt, if_neg hlt]
      refine List.pairwise_cons.2 ⟨fun d hd => ?_, ih hm' fun d hd => ha d (by simp [hd])⟩
      rcases mem_insertAt.1 hd with rfl | hd
      · exact lt_of_le_of_ne (not_lt.1 hlt) (ha c (by simp))
      · exact hc d hd

/-- Memory with nothing listed has the canonical form. -/
theorem Memory.wf_nil : Memory.wf [] := by simp [Memory.wf]

theorem Memory.wf_dropAt {m : Memory} (h : m.wf) (a : Nat) : Memory.wf (m.dropAt a) :=
  ⟨h.1.filter _, fun c hc => h.2 c (mem_of_mem_dropAt hc)⟩

/-- A write keeps the canonical form. -/
theorem Memory.wf_write {m : Memory} (h : m.wf) (a v : Byte) : Memory.wf (m.write a v) := by
  unfold Memory.write
  split
  · exact Memory.wf_dropAt h _
  · next hv =>
    have hd := Memory.wf_dropAt h a.toNat
    refine ⟨insertAt_pairwise v hd.1 fun _ hc => ne_of_mem_dropAt hc, fun c hc => ?_⟩
    rcases mem_insertAt.1 hc with rfl | hc
    · exact ⟨a.isLt, hv⟩
    · exact hd.2 c hc

theorem lookupAt_of_mem {m : Memory} (h : m.Pairwise fun c d => c.1 < d.1) {c : Host.Cell} (hc : c ∈ m) :
    m.lookupAt c.1 = c.2 := by
  induction m with
  | nil => simp at hc
  | cons d m ih =>
    obtain ⟨hd, hm⟩ := List.pairwise_cons.1 h
    rcases List.mem_cons.1 hc with rfl | hc
    · simp [Memory.lookupAt]
    · have : d.1 ≠ c.1 := (hd c hc).ne
      simpa [Memory.lookupAt, this] using ih hm hc

theorem mem_of_lookupAt_ne {m : Memory} {a : Nat} (h : m.lookupAt a ≠ Config.zeroInit) :
    (a, m.lookupAt a) ∈ m := by
  induction m with
  | nil => exact absurd rfl h
  | cons c m ih =>
    by_cases hc : c.1 = a
    · subst hc
      simp [Memory.lookupAt]
    · simp only [Memory.lookupAt, hc, if_false] at h ⊢
      exact List.mem_cons_of_mem _ (ih h)

/-- Two memories in canonical form that read the same at every address are the same data. -/
theorem Memory.ext_of_read {m n : Memory} (hm : m.wf) (hn : n.wf) (h : ∀ a, m.read a = n.read a) : m = n := by
  have sub : ∀ {m n : Memory}, m.wf → n.wf → (∀ a, m.read a = n.read a) → ∀ c ∈ m, c ∈ n := by
    intro m n hm hn h c hc
    have hlt : c.1 < 2 ^ 8 := (hm.2 c hc).1
    have e : n.lookupAt c.1 = c.2 := by
      have := h (BitVec.ofNat 8 c.1)
      rw [Memory.read, Memory.read, BitVec.toNat_ofNat, Nat.mod_eq_of_lt hlt, lookupAt_of_mem hm.1 hc] at this
      exact this.symm
    have := mem_of_lookupAt_ne (m := n) (a := c.1) (by rw [e]; exact (hm.2 c hc).2)
    rwa [e] at this
  have nodup : ∀ {m : Memory}, m.wf → m.Nodup := fun hm => hm.1.imp fun hlt e => by simp [e] at hlt
  refine List.Perm.eq_of_pairwise (le := fun c d => c.1 < d.1) ?_ hm.1 hn.1
    ((List.perm_ext_iff_of_nodup (nodup hm) (nodup hn)).2 fun c =>
      ⟨sub hm hn h c, sub hn hm (fun a => (h a).symm) c⟩)
  intro c d _ _ h1 h2
  exact absurd (h1.trans h2) (lt_irrefl _)

end Sys2Proof.Machine
end

