-- ==== Sys2Proof/Laws/State.lean ====
section
/-! SUPPORT. One lemma for each field of State under each shared update, so that no later proof unfolds a record
update; and the laws of the register file. -/

namespace Sys2Proof.Machine

variable (s : State) (r q : Reg) (a v : Byte) (f : Flag) (c : Cause) (n : Nat)

@[simp] theorem setReg_pc : (s.setReg r v).pc = s.pc := rfl
@[simp] theorem setReg_fl : (s.setReg r v).fl = s.fl := rfl
@[simp] theorem setReg_running : (s.setReg r v).running = s.running := rfl
@[simp] theorem setReg_fault : (s.setReg r v).fault = s.fault := rfl
@[simp] theorem setReg_mem : (s.setReg r v).mem = s.mem := rfl
@[simp] theorem setReg_out : (s.setReg r v).out = s.out := rfl

@[simp] theorem setSp_pc : (s.setSp v).pc = s.pc := rfl
@[simp] theorem setSp_fl : (s.setSp v).fl = s.fl := rfl
@[simp] theorem setSp_running : (s.setSp v).running = s.running := rfl
@[simp] theorem setSp_fault : (s.setSp v).fault = s.fault := rfl
@[simp] theorem setSp_mem : (s.setSp v).mem = s.mem := rfl
@[simp] theorem setSp_out : (s.setSp v).out = s.out := rfl

@[simp] theorem store_x : (s.store a v).x = s.x := rfl
@[simp] theorem store_pc : (s.store a v).pc = s.pc := rfl
@[simp] theorem store_fl : (s.store a v).fl = s.fl := rfl
@[simp] theorem store_running : (s.store a v).running = s.running := rfl
@[simp] theorem store_fault : (s.store a v).fault = s.fault := rfl
@[simp] theorem store_mem : (s.store a v).mem = s.mem.write a v := rfl
@[simp] theorem store_out : (s.store a v).out = s.out := rfl
@[simp] theorem store_reg : (s.store a v).reg r = s.reg r := rfl
@[simp] theorem store_sp : (s.store a v).sp = s.sp := rfl

@[simp] theorem jump_x : (s.jump a).x = s.x := rfl
@[simp] theorem jump_pc : (s.jump a).pc = a := rfl
@[simp] theorem jump_fl : (s.jump a).fl = s.fl := rfl
@[simp] theorem jump_running : (s.jump a).running = s.running := rfl
@[simp] theorem jump_fault : (s.jump a).fault = s.fault := rfl
@[simp] theorem jump_mem : (s.jump a).mem = s.mem := rfl
@[simp] theorem jump_out : (s.jump a).out = s.out := rfl
@[simp] theorem jump_reg : (s.jump a).reg r = s.reg r := rfl
@[simp] theorem jump_sp : (s.jump a).sp = s.sp := rfl

@[simp] theorem advance_x : (s.advance n).x = s.x := rfl
@[simp] theorem advance_pc : (s.advance n).pc = s.pc + BitVec.ofNat 8 n := rfl
@[simp] theorem advance_fl : (s.advance n).fl = s.fl := rfl
@[simp] theorem advance_running : (s.advance n).running = s.running := rfl
@[simp] theorem advance_fault : (s.advance n).fault = s.fault := rfl
@[simp] theorem advance_mem : (s.advance n).mem = s.mem := rfl
@[simp] theorem advance_out : (s.advance n).out = s.out := rfl
@[simp] theorem advance_reg : (s.advance n).reg r = s.reg r := rfl
@[simp] theorem advance_sp : (s.advance n).sp = s.sp := rfl

@[simp] theorem output_x : (s.output v).x = s.x := rfl
@[simp] theorem output_pc : (s.output v).pc = s.pc := rfl
@[simp] theorem output_fl : (s.output v).fl = s.fl := rfl
@[simp] theorem output_running : (s.output v).running = s.running := rfl
@[simp] theorem output_fault : (s.output v).fault = s.fault := rfl
@[simp] theorem output_mem : (s.output v).mem = s.mem := rfl
@[simp] theorem output_out : (s.output v).out = s.out ++ [v] := rfl
@[simp] theorem output_reg : (s.output v).reg r = s.reg r := rfl

@[simp] theorem halt_x : s.halt.x = s.x := rfl
@[simp] theorem halt_pc : s.halt.pc = s.pc := rfl
@[simp] theorem halt_fl : s.halt.fl = s.fl := rfl
@[simp] theorem halt_running : s.halt.running = false := rfl
@[simp] theorem halt_fault : s.halt.fault = s.fault := rfl
@[simp] theorem halt_mem : s.halt.mem = s.mem := rfl
@[simp] theorem halt_out : s.halt.out = s.out := rfl
@[simp] theorem halt_reg : s.halt.reg r = s.reg r := rfl

@[simp] theorem setFlag_x : (s.setFlag f).x = s.x := rfl
@[simp] theorem setFlag_pc : (s.setFlag f).pc = s.pc := rfl
@[simp] theorem setFlag_fl : (s.setFlag f).fl = f := rfl
@[simp] theorem setFlag_running : (s.setFlag f).running = s.running := rfl
@[simp] theorem setFlag_fault : (s.setFlag f).fault = s.fault := rfl
@[simp] theorem setFlag_mem : (s.setFlag f).mem = s.mem := rfl
@[simp] theorem setFlag_out : (s.setFlag f).out = s.out := rfl
@[simp] theorem setFlag_reg : (s.setFlag f).reg r = s.reg r := rfl

@[simp] theorem raise_x : (s.raise c).x = s.x := rfl
@[simp] theorem raise_pc : (s.raise c).pc = s.pc := rfl
@[simp] theorem raise_fl : (s.raise c).fl = s.fl := rfl
@[simp] theorem raise_running : (s.raise c).running = s.running := rfl
@[simp] theorem raise_mem : (s.raise c).mem = s.mem := rfl
@[simp] theorem raise_out : (s.raise c).out = s.out := rfl
@[simp] theorem raise_reg : (s.raise c).reg r = s.reg r := rfl
@[simp] theorem raise_fault :
    (s.raise c).fault = some ⟨c, s.pc, s.mem.read s.pc, s.mem.read (s.pc + 1), s.mem.read (s.pc + 2)⟩ := rfl

@[simp] theorem fetch_ir : s.fetch.ir = s.mem.read s.pc := rfl
@[simp] theorem fetch_opa : s.fetch.opa = s.mem.read (s.pc + 1) := rfl
@[simp] theorem fetch_opb : s.fetch.opb = s.mem.read (s.pc + 2) := rfl

/-- A register read after a register write. -/
theorem reg_setReg : (s.setReg r v).reg q = if q = r then v else s.reg q := by
  simp only [State.reg, State.setReg, Vector.getElem_set]
  simp [Fin.ext_iff, eq_comm]

@[simp] theorem reg_setReg_same : (s.setReg r v).reg r = v := by simp [reg_setReg]

theorem reg_setReg_other {q r : Reg} (h : q ≠ r) : (s.setReg r v).reg q = s.reg q := by simp [reg_setReg, h]

theorem reg_setSp : (s.setSp v).reg q = if q = Config.spIndex then v else s.reg q := reg_setReg ..

@[simp] theorem sp_setSp : (s.setSp v).sp = v := reg_setReg_same ..

theorem sp_setReg : (s.setReg r v).sp = if Config.spIndex = r then v else s.sp := reg_setReg ..

/-- Two states with equal registers and equal other fields are equal. -/
theorem State.ext_of_reg {s t : State} (hx : ∀ r, s.reg r = t.reg r) (hpc : s.pc = t.pc) (hfl : s.fl = t.fl)
    (hrun : s.running = t.running) (hfault : s.fault = t.fault) (hmem : s.mem = t.mem) (hout : s.out = t.out) :
    s = t := by
  have : s.x = t.x := Vector.ext fun i hi => hx ⟨i, hi⟩
  cases s
  cases t
  simp_all

/-- All that a push does (R92). -/
@[simp] theorem push_pc : (s.push v).pc = s.pc := rfl
@[simp] theorem push_fl : (s.push v).fl = s.fl := rfl
@[simp] theorem push_running : (s.push v).running = s.running := rfl
@[simp] theorem push_fault : (s.push v).fault = s.fault := rfl
@[simp] theorem push_mem : (s.push v).mem = s.mem.write s.pushAddr v := rfl
@[simp] theorem push_out : (s.push v).out = s.out := rfl
@[simp] theorem push_sp : (s.push v).sp = s.pushAddr := sp_setSp ..
theorem push_reg : (s.push v).reg q = if q = Config.spIndex then s.pushAddr else s.reg q := reg_setSp ..

/-- All that a pop does (R93). -/
@[simp] theorem pop_value : s.pop.1 = s.mem.read s.sp := rfl
@[simp] theorem pop_pc : s.pop.2.pc = s.pc := rfl
@[simp] theorem pop_fl : s.pop.2.fl = s.fl := rfl
@[simp] theorem pop_running : s.pop.2.running = s.running := rfl
@[simp] theorem pop_fault : s.pop.2.fault = s.fault := rfl
@[simp] theorem pop_mem : s.pop.2.mem = s.mem := rfl
@[simp] theorem pop_out : s.pop.2.out = s.out := rfl
@[simp] theorem pop_sp : s.pop.2.sp = s.sp + 1 := sp_setSp ..
theorem pop_reg : s.pop.2.reg q = if q = Config.spIndex then s.sp + 1 else s.reg q := reg_setSp ..

theorem canStep_iff : s.canStep = true ↔ s.running = true ∧ s.fault = none := by
  simp [State.canStep]

/-- Which flag value a compare gives. -/
theorem compareFlag_cases (x y : Byte) :
    (compareFlag x y = .less ∧ x.toNat < y.toNat) ∨ (compareFlag x y = .greater ∧ y.toNat < x.toNat) ∨
      (compareFlag x y = .equal ∧ x = y) := by
  unfold compareFlag
  split
  · simp_all
  · split
    · simp_all
    · exact .inr (.inr ⟨rfl, BitVec.eq_of_toNat_eq (by omega)⟩)

end Sys2Proof.Machine
end

