-- ==== Sys2Proof/Laws/Operands.lean ====
section
/-! SUPPORT. The laws of register bytes and of the operand check, and what the ALU can do. -/

namespace Sys2Proof.Machine

@[simp] theorem regOf_regByte (r : Reg) : regOf (regByte r) = some r := by revert r; decide

theorem regOf_of_lt {b : Byte} (h : b.toNat < 8) : regOf b = some ⟨b.toNat, h⟩ := dif_pos h

theorem regOf_eq_none_iff (b : Byte) : regOf b = none ↔ 8 ≤ b.toNat := by
  unfold regOf Config.nreg
  split <;> simp <;> omega

/-- A byte names a register exactly when it is that register's byte. -/
theorem regOf_eq_some_iff {b : Byte} {r : Reg} : regOf b = some r ↔ b = regByte r := by
  constructor
  · intro h
    unfold regOf at h
    split at h
    · cases h
      exact BitVec.eq_of_toNat_eq (by simp [regByte])
    · cases h
  · rintro rfl
    exact regOf_regByte r

@[simp] theorem regByte_toNat (r : Reg) : (regByte r).toNat = r.val := by revert r; decide

theorem regByte_injective {q r : Reg} (h : regByte q = regByte r) : q = r := by
  simpa using congrArg regOf h

/-- The operand check of one register byte, each way. -/
theorem withReg_cases (a : Byte) (s : State) (f : Reg → State) :
    (∃ r, a = regByte r ∧ withReg a s f = .next (f r)) ∨
      (8 ≤ a.toNat ∧ withReg a s f = .next (s.raise .registerIndexFault)) := by
  unfold withReg
  cases h : regOf a with
  | some r => exact .inl ⟨r, regOf_eq_some_iff.1 h, rfl⟩
  | none => exact .inr ⟨(regOf_eq_none_iff a).1 h, rfl⟩

/-- The operand check of two register bytes, each way. -/
theorem withRegs_cases (a b : Byte) (s : State) (f : Reg → Reg → State) :
    (∃ q r, a = regByte q ∧ b = regByte r ∧ withRegs a b s f = .next (f q r)) ∨
      ((8 ≤ a.toNat ∨ 8 ≤ b.toNat) ∧ withRegs a b s f = .next (s.raise .registerIndexFault)) := by
  unfold withRegs
  cases ha : regOf a with
  | none => exact .inr ⟨.inl ((regOf_eq_none_iff a).1 ha), rfl⟩
  | some q =>
    cases hb : regOf b with
    | none => exact .inr ⟨.inr ((regOf_eq_none_iff b).1 hb), rfl⟩
    | some r => exact .inl ⟨q, r, regOf_eq_some_iff.1 ha, regOf_eq_some_iff.1 hb, rfl⟩

@[simp] theorem withReg_regByte (r : Reg) (s : State) (f : Reg → State) :
    withReg (regByte r) s f = .next (f r) := by simp [withReg]

theorem withReg_of_le {a : Byte} (h : 8 ≤ a.toNat) (s : State) (f : Reg → State) :
    withReg a s f = .next (s.raise .registerIndexFault) := by
  simp [withReg, (regOf_eq_none_iff a).2 h]

@[simp] theorem withRegs_regByte (q r : Reg) (s : State) (f : Reg → Reg → State) :
    withRegs (regByte q) (regByte r) s f = .next (f q r) := by simp [withRegs]

theorem withRegs_of_le {a b : Byte} (h : 8 ≤ a.toNat ∨ 8 ≤ b.toNat) (s : State) (f : Reg → Reg → State) :
    withRegs a b s f = .next (s.raise .registerIndexFault) := by
  rcases withRegs_cases a b s f with ⟨q, r, rfl, rfl, -⟩ | ⟨-, e⟩
  · have hq := q.isLt
    have hr := r.isLt
    simp only [regByte_toNat] at h
    omega
  · exact e

@[simp] theorem aluHandler_add (a b : Reg) (s : State) :
    aluHandler .add a b s = (s.setReg a (aluAdd (s.reg a) (s.reg b))).advance 3 := rfl

@[simp] theorem aluHandler_mul (a b : Reg) (s : State) :
    aluHandler .mul a b s = (s.setReg a (aluMul (s.reg a) (s.reg b))).advance 3 := rfl

@[simp] theorem aluHandler_cmp (a b : Reg) (s : State) :
    aluHandler .cmp a b s = (s.setFlag (compareFlag (s.reg a) (s.reg b))).advance 3 := rfl

theorem aluAdd_toNat (x y : Byte) : (aluAdd x y).toNat = (x.toNat + y.toNat) % 256 := BitVec.toNat_ofNat ..

theorem aluMul_toNat (x y : Byte) : (aluMul x y).toNat = (x.toNat * y.toNat) % 256 := BitVec.toNat_ofNat ..

/-- A register byte is below 8 exactly when it names a register. -/
theorem lt_nreg_iff (b : Byte) : b.toNat < Config.nreg ↔ ∃ r, b = regByte r := by
  constructor
  · exact fun h => ⟨_, regOf_eq_some_iff.1 (regOf_of_lt h)⟩
  · rintro ⟨r, rfl⟩
    rw [regByte_toNat]
    exact r.isLt

/-- Well formed is: every register byte is at most 7. -/
theorem wf_iff (i : Instr) : i.wf = true ↔ ∀ b ∈ i.regBytes, b.toNat < 8 := by
  simp only [Instr.wf, List.all_eq_true, decide_eq_true_iff]

/-- Ill formed is: some register byte is above 7. -/
theorem wf_eq_false_iff (i : Instr) : i.wf = false ↔ ∃ b ∈ i.regBytes, 8 ≤ b.toNat := by
  rw [← Bool.not_eq_true, wf_iff]
  simp only [not_forall, not_lt, exists_prop]

end Sys2Proof.Machine
end

