-- ==== Sys2Proof/Laws/Exec.lean ====
section
/-! SUPPORT. What each meaning answers on register bytes that name registers, what every meaning answers on one that
does not, and what a step can do. Later proofs cite these and unfold neither `exec` nor `step`. -/

namespace Sys2Proof.Machine

variable (s : State) (q r : Reg)

theorem exec_hlt : exec .hlt s = .next s.halt := rfl

theorem exec_ldi (imm : Byte) : exec (.ldi (regByte r) imm) s = .next ((s.setReg r imm).advance 3) := by
  simp [exec, execLdi]

theorem exec_prn : exec (.prn (regByte r)) s = .next ((s.output (s.reg r)).advance 2) := by
  simp [exec, execPrn]

theorem exec_add :
    exec (.add (regByte q) (regByte r)) s = .next ((s.setReg q (aluAdd (s.reg q) (s.reg r))).advance 3) := by
  simp [exec, execAdd]

theorem exec_mul :
    exec (.mul (regByte q) (regByte r)) s = .next ((s.setReg q (aluMul (s.reg q) (s.reg r))).advance 3) := by
  simp [exec, execMul]

theorem exec_cmp :
    exec (.cmp (regByte q) (regByte r)) s = .next ((s.setFlag (compareFlag (s.reg q) (s.reg r))).advance 3) := by
  simp [exec, execCmp]

theorem exec_push : exec (.push (regByte r)) s = .next ((s.push (s.reg r)).advance 2) := by
  simp [exec, execPush]

theorem exec_pop :
    exec (.pop (regByte r)) s = .next ((s.pop.2.setReg r (s.mem.read s.sp)).advance 2) := by
  simp [exec, execPop]

theorem exec_call :
    exec (.call (regByte r)) s =
      .next ((s.push s.returnAddr).jump (if r = Config.spIndex then s.pushAddr else s.reg r)) := by
  simp [exec, execCall, push_reg]

theorem exec_ret : exec .ret s = .next (s.pop.2.jump (s.mem.read s.sp)) := rfl

theorem exec_jmp : exec (.jmp (regByte r)) s = .next (s.jump (s.reg r)) := by
  simp [exec, execJmp]

theorem exec_jeq :
    exec (.jeq (regByte r)) s = .next (if s.fl = .equal then s.jump (s.reg r) else s.advance 2) := by
  simp [exec, execJeq, State.flagEqual]

theorem exec_jne :
    exec (.jne (regByte r)) s = .next (if s.fl = .equal then s.advance 2 else s.jump (s.reg r)) := by
  simp [exec, execJne, State.flagEqual]

/-- An instruction that fails the operand check takes the register index fault, whatever it is. -/
theorem exec_of_not_wf {i : Instr} (h : i.wf = false) : exec i s = .next (s.raise .registerIndexFault) := by
  rw [wf_eq_false_iff] at h
  cases i <;> simp only [Instr.regBytes, List.mem_cons, List.not_mem_nil, or_false, exists_eq_or_imp, exists_eq_left,
    false_and, exists_false] at h
  case ldi a imm => exact withReg_of_le h ..
  case prn a => exact withReg_of_le h ..
  case add a b => exact withRegs_of_le h ..
  case mul a b => exact withRegs_of_le h ..
  case push a => exact withReg_of_le h ..
  case pop a => exact withReg_of_le h ..
  case call a => exact withReg_of_le h ..
  case cmp a b => exact withRegs_of_le h ..
  case jmp a => exact withReg_of_le h ..
  case jeq a => exact withReg_of_le h ..
  case jne a => exact withReg_of_le h ..

/-- All that an instruction can do: the failed operand check, or its own effect on the registers its bytes name. -/
inductive Effect (s : State) : Instr → State → Prop where
  | bad {i : Instr} (h : i.wf = false) : Effect s i (s.raise .registerIndexFault)
  | hlt : Effect s .hlt s.halt
  | ldi (r : Reg) (imm : Byte) : Effect s (.ldi (regByte r) imm) ((s.setReg r imm).advance 3)
  | prn (r : Reg) : Effect s (.prn (regByte r)) ((s.output (s.reg r)).advance 2)
  | add (q r : Reg) :
    Effect s (.add (regByte q) (regByte r)) ((s.setReg q (aluAdd (s.reg q) (s.reg r))).advance 3)
  | mul (q r : Reg) :
    Effect s (.mul (regByte q) (regByte r)) ((s.setReg q (aluMul (s.reg q) (s.reg r))).advance 3)
  | push (r : Reg) : Effect s (.push (regByte r)) ((s.push (s.reg r)).advance 2)
  | pop (r : Reg) : Effect s (.pop (regByte r)) ((s.pop.2.setReg r (s.mem.read s.sp)).advance 2)
  | call (r : Reg) :
    Effect s (.call (regByte r))
      ((s.push s.returnAddr).jump (if r = Config.spIndex then s.pushAddr else s.reg r))
  | ret : Effect s .ret (s.pop.2.jump (s.mem.read s.sp))
  | cmp (q r : Reg) :
    Effect s (.cmp (regByte q) (regByte r)) ((s.setFlag (compareFlag (s.reg q) (s.reg r))).advance 3)
  | jmp (r : Reg) : Effect s (.jmp (regByte r)) (s.jump (s.reg r))
  | jeq (r : Reg) : Effect s (.jeq (regByte r)) (if s.fl = .equal then s.jump (s.reg r) else s.advance 2)
  | jne (r : Reg) : Effect s (.jne (regByte r)) (if s.fl = .equal then s.advance 2 else s.jump (s.reg r))

/-- Every instruction answers a next state, and its effect is one of those of `Effect`. -/
theorem exec_effect (i : Instr) (s : State) : ∃ t, exec i s = .next t ∧ Effect s i t := by
  cases hw : i.wf
  · exact ⟨_, exec_of_not_wf s hw, .bad hw⟩
  · have named : ∀ b ∈ i.regBytes, ∃ r, b = regByte r := fun b hb =>
      (lt_nreg_iff b).1 ((wf_iff i).1 hw b hb)
    cases i <;> simp only [Instr.regBytes, List.mem_cons, List.not_mem_nil, or_false, forall_eq_or_imp,
      forall_eq] at named
    case hlt => exact ⟨_, rfl, .hlt⟩
    case ret => exact ⟨_, rfl, .ret⟩
    case add =>
      obtain ⟨⟨q, rfl⟩, r, rfl⟩ := named
      exact ⟨_, exec_add .., .add q r⟩
    case mul =>
      obtain ⟨⟨q, rfl⟩, r, rfl⟩ := named
      exact ⟨_, exec_mul .., .mul q r⟩
    case cmp =>
      obtain ⟨⟨q, rfl⟩, r, rfl⟩ := named
      exact ⟨_, exec_cmp .., .cmp q r⟩
    case ldi =>
      obtain ⟨r, rfl⟩ := named
      exact ⟨_, exec_ldi .., .ldi r _⟩
    case prn =>
      obtain ⟨r, rfl⟩ := named
      exact ⟨_, exec_prn .., .prn r⟩
    case push =>
      obtain ⟨r, rfl⟩ := named
      exact ⟨_, exec_push .., .push r⟩
    case pop =>
      obtain ⟨r, rfl⟩ := named
      exact ⟨_, exec_pop .., .pop r⟩
    case call =>
      obtain ⟨r, rfl⟩ := named
      exact ⟨_, exec_call .., .call r⟩
    case jmp =>
      obtain ⟨r, rfl⟩ := named
      exact ⟨_, exec_jmp .., .jmp r⟩
    case jeq =>
      obtain ⟨r, rfl⟩ := named
      exact ⟨_, exec_jeq .., .jeq r⟩
    case jne =>
      obtain ⟨r, rfl⟩ := named
      exact ⟨_, exec_jne .., .jne r⟩

/-- The effect of an instruction that answers `t`. -/
theorem effect_of_exec {i : Instr} {s t : State} (h : exec i s = .next t) : Effect s i t := by
  obtain ⟨u, hu, he⟩ := exec_effect i s
  rw [h] at hu
  cases hu
  exact he

/-- All that a step can do: it is taken from a running machine with an empty latch, and it either takes the invalid
opcode fault or runs the decoded instruction. -/
theorem step_next_cases {s t : State} (h : step s = .next t) :
    s.running = true ∧ s.fault = none ∧
      ((∃ b, decode (s.mem.read s.pc) (s.mem.read (s.pc + 1)) (s.mem.read (s.pc + 2)) = .invalidOpcode b ∧
          t = s.raise .invalidOpcode) ∨
        ∃ i, decode (s.mem.read s.pc) (s.mem.read (s.pc + 1)) (s.mem.read (s.pc + 2)) = .insn i ∧
          exec i s = .next t) := by
  unfold step at h
  split at h
  · cases h
  · cases h
  · next hr hf =>
    refine ⟨hr, hf, ?_⟩
    split at h
    · next b hd =>
      cases h
      exact .inl ⟨b, hd, rfl⟩
    · next i hd => exact .inr ⟨i, hd, h⟩

/-- A step on a byte that is no opcode. -/
theorem step_of_invalid {s : State} {b : Byte} (hr : s.running = true) (hf : s.fault = none)
    (hd : decode (s.mem.read s.pc) (s.mem.read (s.pc + 1)) (s.mem.read (s.pc + 2)) = .invalidOpcode b) :
    step s = .next (s.raise .invalidOpcode) := by
  simp only [step, hr, hf, fetch_ir, fetch_opa, fetch_opb, hd]

/-- The decoder rejects exactly the bytes that are not in the opcode map. -/
theorem decode_invalid_iff (ir opa opb : Byte) :
    decode ir opa opb = .invalidOpcode ir ↔ ir ∉ knownOpcodes := by
  unfold decode knownOpcodes
  cases h : opcodeMap.lookup ir with
  | none =>
    rw [List.lookup_eq_none_iff] at h
    simp only [true_iff, List.mem_map, not_exists, not_and]
    exact fun p hp e => by simpa [e] using h p hp
  | some mk =>
    simp only [reduceCtorEq, false_iff, not_not, List.mem_map]
    obtain ⟨l₁, l₂, e, -⟩ := List.lookup_eq_some_iff.1 h
    exact ⟨(ir, mk), by simp [e], rfl⟩

end Sys2Proof.Machine
end

