-- ==== Sys2Proof/Laws/Interface.lean ====
section
/-! SUPPORT. The interface's memory operations keep the canonical form, and the laws of a run. -/

namespace Sys2Proof.Machine

/-- A LOAD keeps the canonical form of memory. -/
theorem wf_loadBytes (bytes : List Nat) : ∀ (start : Nat) {m : Memory}, m.wf → Memory.wf (loadBytes bytes start m) := by
  induction bytes with
  | nil => exact fun _ _ h => h
  | cons b bytes ih => exact fun start m h => ih (start + 1) (Memory.wf_write h _ _)

/-- Any list of accesses keeps the canonical form of memory. -/
theorem wf_applyAccesses (l : List Access) : ∀ {m : Memory}, m.wf → Memory.wf (applyAccesses l m) := by
  induction l with
  | nil => exact fun h => h
  | cons a l ih =>
    cases a with
    | read a => exact fun h => ih h
    | write a v => exact fun h => ih (Memory.wf_write h a v)

/-- Placing a table word where the next step fetches keeps the canonical form of memory. -/
theorem wf_withFetchWord {s : State} (h : s.mem.wf) (nbits w : Nat) : Memory.wf (s.withFetchWord nbits w).mem :=
  Memory.wf_write (Memory.wf_write (Memory.wf_write h _ _) _ _) _ _

/-- A step keeps the canonical form of memory. -/
theorem wf_step {s t : State} (hm : s.mem.wf) (h : step s = .next t) : Memory.wf t.mem := by
  obtain ⟨-, -, ⟨b, -, rfl⟩ | ⟨i, -, he⟩⟩ := step_next_cases h
  · exact hm
  · cases effect_of_exec he with
    | push r => exact Memory.wf_write hm _ _
    | call r => exact Memory.wf_write hm _ _
    | jeq r => split <;> exact hm
    | jne r => split <;> exact hm
    | _ => exact hm

/-- One more unit of fuel, from a state that steps. -/
theorem run_succ_of_next {s t : State} (h : step s = .next t) (fuel : Nat) : s.run (fuel + 1) = t.run fuel := by
  simp [State.run, h]

/-- No fuel takes no step. -/
@[simp] theorem run_zero (s : State) : s.run 0 = s := rfl

end Sys2Proof.Machine
end

