-- ==== Sys2Proof/Laws/PerInstr.lean ====
section
/-! SUPPORT. Facts of every instruction as syntax, one lemma for each constructor (the family `EncodingShape`). -/

namespace Sys2Proof.Laws.EncodingShape

open Sys2Proof

/-- The instructions of the ALU (R85). -/
def isAlu : Instr → Bool
  | .add _ _ | .mul _ _ | .cmp _ _ => true
  | .hlt | .ldi _ _ | .prn _ | .push _ | .pop _ | .call _ | .ret | .jmp _ | .jeq _ | .jne _ => false

/-- The instructions whose new `pc` the source's table gives as set or conditional (R16, R57). -/
def setsPc : Instr → Bool
  | .call _ | .ret | .jmp _ | .jeq _ | .jne _ => true
  | .hlt | .ldi _ _ | .prn _ | .add _ _ | .mul _ _ | .push _ | .pop _ | .cmp _ _ => false

/-- An encoding is the opcode byte and the operand bytes, as many bytes as the length says (R50, R51, R58); its opcode
is one of the known ones (R62), and the opcode's fields are what R57 says of them; the register bytes the operand
check looks at are the first operand bytes (R52, R73). -/
def Statement (i : Instr) : Prop :=
  (encode i).head? = some i.opcode ∧ (encode i).length = i.length ∧ i.opcode ∈ knownOpcodes ∧
    i.length = 1 + opcodeOperandCount i.opcode ∧ opcodeIsAlu i.opcode = isAlu i ∧
    opcodeSetsPc i.opcode = setsPc i ∧ i.regBytes = i.operands.take i.regBytes.length

/-- The statement from its parts, the opcode being a closed number. -/
theorem of_parts {i : Instr} (code : Byte) (alu set : Bool) (hc : i.opcode = code)
    (hk : code ∈ knownOpcodes ∧ opcodeIsAlu code = alu ∧ opcodeSetsPc code = set)
    (hl : i.length = 1 + opcodeOperandCount code) (ha : alu = isAlu i) (hs : set = setsPc i)
    (hr : i.regBytes = i.operands.take i.regBytes.length) : Statement i := by
  subst hc
  exact ⟨rfl, Nat.add_comm _ _, hk.1, hl, hk.2.1.trans ha, hk.2.2.trans hs, hr⟩

theorem hlt : Statement .hlt := of_parts 0x01 false false rfl (by decide) rfl rfl rfl rfl
theorem ldi (a imm : Byte) : Statement (.ldi a imm) := of_parts 0x82 false false rfl (by decide) rfl rfl rfl rfl
theorem prn (a : Byte) : Statement (.prn a) := of_parts 0x47 false false rfl (by decide) rfl rfl rfl rfl
theorem add (a b : Byte) : Statement (.add a b) := of_parts 0xA0 true false rfl (by decide) rfl rfl rfl rfl
theorem mul (a b : Byte) : Statement (.mul a b) := of_parts 0xA2 true false rfl (by decide) rfl rfl rfl rfl
theorem push (a : Byte) : Statement (.push a) := of_parts 0x45 false false rfl (by decide) rfl rfl rfl rfl
theorem pop (a : Byte) : Statement (.pop a) := of_parts 0x46 false false rfl (by decide) rfl rfl rfl rfl
theorem call (a : Byte) : Statement (.call a) := of_parts 0x50 false true rfl (by decide) rfl rfl rfl rfl
theorem ret : Statement .ret := of_parts 0x11 false true rfl (by decide) rfl rfl rfl rfl
theorem cmp (a b : Byte) : Statement (.cmp a b) := of_parts 0xA7 true false rfl (by decide) rfl rfl rfl rfl
theorem jmp (a : Byte) : Statement (.jmp a) := of_parts 0x54 false true rfl (by decide) rfl rfl rfl rfl
theorem jeq (a : Byte) : Statement (.jeq a) := of_parts 0x55 false true rfl (by decide) rfl rfl rfl rfl
theorem jne (a : Byte) : Statement (.jne a) := of_parts 0x56 false true rfl (by decide) rfl rfl rfl rfl

end Sys2Proof.Laws.EncodingShape
end

