-- ==== Sys2Proof/Tests/Slice0.lean ====
section
/-! SUPPORT. The model's own tests: the well-formedness smoke test, the decoding of words written out from the encoding
tables of 30_encoding.md rules R51 and R55, single-step vectors of 95_test_vectors.md (each named by its id there, with
the result that file gives), and a witness for the hypotheses of every statement that has some. -/

namespace Sys2Proof.Tests

open Sys2Proof.Machine

/-- The next state of an outcome. -/
def after : Host.Outcome State Fault Refusal → Option State
  | .next s => some s
  | .fault _ => none
  | .refused _ => none

/-- Three bytes at `pc`, `pc + 1`, `pc + 2`. -/
def place (s : State) (b0 b1 b2 : Byte) : State :=
  ((s.store s.pc b0).store (s.pc + 1) b1).store (s.pc + 2) b2

/-- The reset state with the program counter, R0, R1 and SP as given. -/
def start (pc r0 r1 sp : Byte) : State :=
  { State.reset with pc := pc, x := #v[r0, r1, 0, 0, 0, 0, 0, sp] }

/-- What a step answers on a state, seen through a function. -/
def see {α : Type} (f : State → α) (s : State) : Option α := (after (step s)).map f

/-! ### Well-formedness -/

theorem test_wf_refuses_one_byte_forms :
    Instr.wf (.ldi 8 0) = false ∧ Instr.wf (.prn 8) = false ∧ Instr.wf (.push 8) = false ∧
    Instr.wf (.pop 8) = false ∧ Instr.wf (.call 255) = false ∧ Instr.wf (.jmp 8) = false ∧
    Instr.wf (.jeq 8) = false ∧ Instr.wf (.jne 8) = false := by decide

theorem test_wf_refuses_two_byte_forms :
    Instr.wf (.add 8 0) = false ∧ Instr.wf (.add 7 8) = false ∧ Instr.wf (.mul 8 0) = false ∧
    Instr.wf (.mul 0 8) = false ∧ Instr.wf (.cmp 8 0) = false ∧ Instr.wf (.cmp 0 255) = false := by decide

theorem test_wf_accepts :
    Instr.wf .hlt = true ∧ Instr.wf .ret = true ∧ Instr.wf (.ldi 7 255) = true ∧ Instr.wf (.add 7 7) = true := by
  decide

/-! ### Decoding: words written out bit by bit from R51 and R55 -/

theorem test_decode_op : decode 0b00000001 0b11111111 0b11111111 = .insn .hlt ∧
    decode 0b00010001 0b11111111 0b11111111 = .insn .ret := by decide

theorem test_decode_op_r : decode 0b01000111 0b00000101 0b11111111 = .insn (.prn 5) ∧
    decode 0b01000101 0b00000111 0b11111111 = .insn (.push 7) ∧
    decode 0b01000110 0b00000010 0b11111111 = .insn (.pop 2) ∧
    decode 0b01010000 0b00000001 0b11111111 = .insn (.call 1) ∧
    decode 0b01010100 0b00000011 0b11111111 = .insn (.jmp 3) ∧
    decode 0b01010101 0b00000100 0b11111111 = .insn (.jeq 4) ∧
    decode 0b01010110 0b00000110 0b11111111 = .insn (.jne 6) := by decide

theorem test_decode_op_r_r : decode 0b10100000 0b00000110 0b00000001 = .insn (.add 6 1) ∧
    decode 0b10100010 0b00000010 0b00000101 = .insn (.mul 2 5) ∧
    decode 0b10100111 0b00000100 0b00000011 = .insn (.cmp 4 3) := by decide

theorem test_decode_op_r_i : decode 0b10000010 0b00000011 0b11110100 = .insn (.ldi 3 0xF4) := by decide

/-- E2, E3, E4, E5 and the source's own example 00000010: no opcodes. -/
theorem test_decode_invalid : decode 0b00000010 0 0 = .invalidOpcode 0x02 ∧ decode 0 0 0 = .invalidOpcode 0 ∧
    decode 0xA1 0 1 = .invalidOpcode 0xA1 ∧ decode 0xFF 0 0 = .invalidOpcode 0xFF ∧
    decode 0x83 0 1 = .invalidOpcode 0x83 := by decide

/-- R59: 13 opcodes, 243 invalid bytes. -/
theorem test_opcode_count : ((List.range 256).filter fun n =>
    match decode (BitVec.ofNat 8 n) 0 0 with
    | .insn _ => true
    | .invalidOpcode _ => false).length = 13 := by decide

/-- R57's worked fields of LDI `10 0 0 0010`, CMP `10 1 0 0111`, CALL `01 0 1 0000`. -/
theorem test_opcode_fields : (opcodeOperandCount 0x82, opcodeIsAlu 0x82, opcodeSetsPc 0x82, opcodeIdent 0x82) =
      (2, false, false, 0b0010) ∧
    (opcodeOperandCount 0xA7, opcodeIsAlu 0xA7, opcodeSetsPc 0xA7, opcodeIdent 0xA7) = (2, true, false, 0b0111) ∧
    (opcodeOperandCount 0x50, opcodeIsAlu 0x50, opcodeSetsPc 0x50, opcodeIdent 0x50) = (1, false, true, 0b0000) := by
  decide

theorem test_table_word : decodeTableWord 24 0x0100A0 = some (.add 0 1) ∧ decodeTableWord 8 0xFFFF01 = some .hlt ∧
    decodeTableWord 8 0x02 = none := by decide

/-- The bytes of X2, ADD R0,R1 and PRN R0. -/
theorem test_encode : encode (.add 0 1) = [0xA0, 0x00, 0x01] ∧ encode (.prn 0) = [0x47, 0x00] ∧
    encode .hlt = [0x01] := by decide

/-! ### Single steps (95_test_vectors.md) -/

/-- D12: HLT at FF with EE, EE after the wrap. -/
theorem test_hlt_D12 : see (fun t => (t.running, t.pc, t.fault)) (place (start 0xFF 0 0 0) 0x01 0xEE 0xEE) =
    some (false, 0xFF, none) := by decide

/-- D5: the immediate is fetched from address 00 and the new `pc` wraps. -/
theorem test_ldi_D5 : see (fun t => (t.reg 2, t.pc)) (place (start 0xFE 0 0 0) 0x82 0x02 0x7B) =
    some (0x7B, 0x01) := by decide

/-- D4: register byte 08. -/
theorem test_ldi_D4 : see (fun t => (t.fault, t.pc, t.x)) (place State.reset 0x82 0x08 0x05) =
    some (some ⟨.registerIndexFault, 0x00, 0x82, 0x08, 0x05⟩, 0x00, State.reset.x) := by decide

/-- D8: PRN R7. -/
theorem test_prn_D8 : see (fun t => (t.out, t.pc)) (place (start 0 0 0 0xF4) 0x47 0x07 0) =
    some ([244], 0x02) := by decide

/-- D10: the unused `opb` FF is ignored. -/
theorem test_prn_D10 : see (fun t => (t.out, t.pc)) (place (start 0 0 5 0) 0x47 0x01 0xFF) =
    some ([5], 0x02) := by decide

/-- A2: 200 + 100 = 44. -/
theorem test_add_A2 : see (fun t => (t.reg 0, t.reg 1, t.pc)) (place (start 0 0xC8 0x64 0) 0xA0 0x00 0x01) =
    some (0x2C, 0x64, 0x03) := by decide

/-- A10: both bytes 09, one fault. -/
theorem test_add_A10 : see (fun t => (t.fault, t.pc)) (place State.reset 0xA0 0x09 0x09) =
    some (some ⟨.registerIndexFault, 0x00, 0xA0, 0x09, 0x09⟩, 0x00) := by decide

/-- M3: 255 * 255 = 1. -/
theorem test_mul_M3 : see (fun t => (t.reg 0, t.reg 1, t.pc)) (place (start 0 0xFF 0xFF 0) 0xA2 0x00 0x01) =
    some (0x01, 0xFF, 0x03) := by decide

/-- M4: 200 * 3 = 88. -/
theorem test_mul_M4 : see (fun t => (t.reg 0, t.fl)) (place (start 0 0xC8 0x03 0) 0xA2 0x00 0x01) =
    some (0x58, .equal) := by decide

/-- C5: 80 against 7F is GREATER (unsigned). -/
theorem test_cmp_C5 : see (fun t => (t.fl, t.x, t.pc)) (place (start 0 0x80 0x7F 0) 0xA7 0x00 0x01) =
    some (.greater, (start 0 0x80 0x7F 0).x, 0x03) := by decide

/-- C2 and C7: LESS, and EQUAL in place of LESS. -/
theorem test_cmp_C2_C7 : see (·.fl) (place (start 0 3 7 0) 0xA7 0x00 0x01) = some .less ∧
    see (·.fl) (place ((start 0 9 9 0).setFlag .less) 0xA7 0x00 0x01) = some .equal := by decide

/-- S5: PUSH R7 stores the old SP. -/
theorem test_push_S5 : see (fun t => (t.sp, t.mem.read 0xF3, t.pc)) (place (start 0 0 0 0xF4) 0x45 0x07 0) =
    some (0xF3, 0xF4, 0x02) := by decide

/-- S8: the store overwrites the instruction's own operand byte. -/
theorem test_push_S8 : see (fun t => (t.sp, t.mem.read 0x11, t.pc)) (place (start 0x10 0xAA 0 0x12) 0x45 0x00 0) =
    some (0x11, 0xAA, 0x12) := by decide

/-- S6: POP R7 leaves SP the popped byte. -/
theorem test_pop_S6 :
    see (fun t => (t.sp, t.pc)) (place ((start 0 0 0 0xF3).store 0xF3 0x10) 0x46 0x07 0) = some (0x10, 0x02) := by
  decide

/-- S7: POP from reset reads its own opcode byte. -/
theorem test_pop_S7 : see (fun t => (t.reg 0, t.sp, t.pc)) (place State.reset 0x46 0x00 0) =
    some (0x46, 0x01, 0x02) := by decide

/-- T3: CALL R7 jumps to the decremented SP. -/
theorem test_call_T3 : see (fun t => (t.sp, t.mem.read 0xFF, t.pc)) (place (start 4 0 0 0) 0x50 0x07 0) =
    some (0xFF, 0x06, 0xFF) := by decide

/-- T4: the return address wraps. -/
theorem test_call_T4 : see (fun t => (t.sp, t.mem.read 0x7F, t.pc)) (place (start 0xFE 0 0x30 0x80) 0x50 0x01 0) =
    some (0x7F, 0x00, 0x30) := by decide

/-- T6: RET from reset pops its own opcode byte. -/
theorem test_ret_T6 : see (fun t => (t.pc, t.sp)) (place State.reset 0x11 0 0) = some (0x11, 0x01) := by decide

/-- T14: the two bytes after a RET are ignored. -/
theorem test_ret_T14 :
    see (fun t => (t.pc, t.sp, t.fault)) (place ((start 0 0 0 0x40).store 0x40 0x22) 0x11 0xFF 0xFF) =
      some (0x22, 0x41, none) := by decide

/-- T8: JMP to itself leaves the whole state unchanged. -/
theorem test_jmp_T8 :
    after (step (place (start 0x20 0x20 0 0) 0x54 0x00 0)) = some (place (start 0x20 0x20 0 0) 0x54 0x00 0) := by
  decide

/-- T13 and T11: JEQ taken from reset; not taken at FF with LESS. -/
theorem test_jeq_T13_T11 : see (·.pc) (place (start 0 0 0x33 0) 0x55 0x01 0) = some 0x33 ∧
    see (·.pc) (place ((start 0xFF 0 0 0).setFlag .less) 0x55 0x00 0) = some 0x01 := by decide

/-- T12: the operand is checked whether or not the jump is taken. -/
theorem test_jeq_T12 : see (·.fault) (place (State.reset.setFlag .less) 0x55 0x09 0) =
    some (some ⟨.registerIndexFault, 0x00, 0x55, 0x09, 0x00⟩) := by decide

/-- T10L and T10E, with R1: JNE taken with LESS, not taken with EQUAL. -/
theorem test_jne_T10 : see (·.pc) (place ((start 0x14 0 0x0C 0).setFlag .less) 0x56 0x01 0) = some 0x0C ∧
    see (·.pc) (place (start 0x14 0 0x0C 0) 0x56 0x01 0) = some 0x16 := by decide

/-- E1: an unknown opcode has priority over its operand bytes. -/
theorem test_invalid_E1 : after (step (place State.reset 0x02 0xFF 0xFF)) =
    some { place State.reset 0x02 0xFF 0xFF with fault := some ⟨.invalidOpcode, 0x00, 0x02, 0xFF, 0xFF⟩ } := by decide

/-- P8: nothing loaded. -/
theorem test_nothing_loaded_P8 : after (step State.reset) =
    some { State.reset with fault := some ⟨.invalidOpcode, 0, 0, 0, 0⟩ } := by decide

/-- E6, E7: a faulted and a halted machine take no step. -/
theorem test_stopped_E6_E7 :
    step { place State.reset 0x01 0 0 with fault := some ⟨.invalidOpcode, 0, 2, 0, 0⟩ } = .fault .faultLatched ∧
    step { place State.reset 0x82 0 5 with running := false } = .fault .halted := ⟨rfl, rfl⟩

/-- R120, R17: the codes and the bit patterns. -/
theorem test_codes : causeCode .invalidOpcode = 1 ∧ causeCode .registerIndexFault = 2 ∧
    causeCode .unsupportedALUOperation = 3 ∧ flagBits .less = 0b100 ∧ flagBits .greater = 0b010 ∧
    flagBits .equal = 0b001 := by decide

/-- X2: the sink prints `17`, and `0` for zero (R114). -/
theorem test_sink_line : sinkLine 17 = "17\n" ∧ sinkLine 0 = "0\n" ∧ sinkLine 255 = "255\n" := by decide

/-- X2's source line, as the source writes it (R63). -/
theorem test_asm : [Instr.ldi 0 8, .ldi 1 9, .add 0 1, .prn 0, .hlt].map asmText =
    ["LDI R0,8", "LDI R1,9", "ADD R0,R1", "PRN R0", "HLT"] := by decide

/-- R112: a LOAD up to the last cell, one past it, and one with a value that is no byte. -/
theorem test_load : (State.reset.load [0x02] 255).map (·.mem) = some [(255, 0x02)] ∧
    State.reset.load [1, 2] 255 = none ∧ State.reset.load [256] = none ∧
    State.reset.load [] 256 = some State.reset := by decide

/-- The interface's `withFetchWord` places LDI R0,8 where the next step fetches. -/
theorem test_fetch_word : see (fun t => (t.reg 0, t.pc)) (State.reset.withFetchWord 24 0x080082) =
    some (0x08, 0x03) := by decide

/-! ### Witnesses: the hypotheses of each statement that has some are met together -/

/-- LDI R0,8 in the reset machine, and the state after it. -/
abbrev ldi8 : State := place State.reset 0x82 0x00 0x08

theorem ldi8_inv : ldi8.Inv :=
  ⟨by decide, by simp [ldi8, place, State.reset, State.store],
    by simp [ldi8, place, State.reset, State.store], by simp [ldi8, place, State.reset, State.store]⟩

theorem witness_StepKeepsTheMachineInvariant : ∃ t, ldi8.Inv ∧ step ldi8 = .next t := ⟨_, ldi8_inv, rfl⟩

/-- A second LOAD, up to the last cell, after the one that `ldi8` holds. -/
theorem witness_LoadedMachineSatisfiesTheInvariant :
    ∃ t, ldi8.Inv ∧ ldi8.canStep = true ∧ ldi8.load [0x01] 255 = some t := ⟨_, ldi8_inv, rfl, rfl⟩

theorem witness_StepRunsTheDecodedInstruction : ldi8.running = true ∧ ldi8.fault = none ∧
    decode (ldi8.mem.read ldi8.pc) (ldi8.mem.read (ldi8.pc + 1)) (ldi8.mem.read (ldi8.pc + 2)) =
      .insn (.ldi 0 8) := by decide

/-- HLT at FF: its one byte stands at the last address. -/
theorem witness_EncodedInstructionAtPcIsRun :
    let s := place (start 0xFF 0 0 0) 0x01 0xEE 0xEE
    s.running = true ∧ s.fault = none ∧
      ∀ (k : Nat) (b : Byte), (encode .hlt)[k]? = some b → s.mem.read (s.pc + BitVec.ofNat 8 k) = b := by
  refine ⟨rfl, rfl, fun k b h => ?_⟩
  match k, h with
  | 0, h => exact (Option.some.inj h.symm).symm ▸ (by decide)

theorem witness_StepIsTaken_halted : ({ State.reset with running := false } : State).running = false := rfl

theorem witness_StepIsTaken_faulted :
    let s : State := { State.reset with fault := some ⟨.invalidOpcode, 0, 0, 0, 0⟩ }
    s.running = true ∧ s.fault ≠ none := by decide

theorem witness_WellFormedInstructionCompletesWithoutFault : Instr.wf (.add 7 7) = true := by decide

theorem witness_UnknownOpcode_unknown : State.reset.running = true ∧ State.reset.fault = none ∧
    State.reset.mem.read State.reset.pc ∉
      ([0x01, 0x11, 0x45, 0x46, 0x47, 0x50, 0x54, 0x55, 0x56, 0x82, 0xA0, 0xA2, 0xA7] : List Byte) := by decide

/-- The known opcode's clause at a step that does fault, with the other cause. -/
theorem witness_UnknownOpcode_known : ∃ t f, step (place State.reset 0x82 0x08 0x05) = .next t ∧ t.fault = some f ∧
    (place State.reset 0x82 0x08 0x05).mem.read 0 ∈
      ([0x01, 0x11, 0x45, 0x46, 0x47, 0x50, 0x54, 0x55, 0x56, 0x82, 0xA0, 0xA2, 0xA7] : List Byte) :=
  ⟨_, _, rfl, rfl, by decide⟩

/-- A9: `opa` 00 and `opb` 08, the lowest bad byte. -/
theorem witness_RegisterByteAboveSeven_bad :
    let s := place State.reset 0xA0 0x00 0x08
    s.running = true ∧ s.fault = none ∧ s.mem.read s.pc ∈ ([0xA0, 0xA2, 0xA7] : List Byte) ∧
      8 ≤ (s.mem.read (s.pc + 2)).toNat := by decide

/-- The other clause at a step that does fault, with the other cause (E1: unknown opcode, operand bytes FF). -/
theorem witness_RegisterByteAboveSeven_good : ∃ t f, step (place State.reset 0x02 0xFF 0xFF) = .next t ∧
    t.fault = some f ∧ (place State.reset 0x02 0xFF 0xFF).mem.read 0 ∉
      ([0x45, 0x46, 0x47, 0x50, 0x54, 0x55, 0x56, 0x82, 0xA0, 0xA2, 0xA7] : List Byte) :=
  ⟨_, _, rfl, rfl, by decide⟩

theorem witness_FaultsArePrecise : ∃ t f, step (place State.reset 0x82 0x08 0x05) = .next t ∧ t.fault = some f :=
  ⟨_, _, rfl, rfl⟩

theorem witness_DecodeOfEncode : encode (.ldi 7 255) ++ [1] = (0x82 : Byte) :: 7 :: 255 :: [1] := by decide

theorem witness_DecodedInstructionEncodes : decode 0x47 5 0xFF = .insn (.prn 5) := by decide

theorem witness_UnusedOperandBytes : decode 0x11 1 2 = .insn .ret ∧ Instr.ret.length = 1 ∧
    decode 0x47 5 2 = .insn (.prn 5) ∧ (Instr.prn 5).length = 2 := by decide

/-- The fault clauses of the per-instruction statements, at the lowest byte that names no register. -/
theorem witness_register_byte_eight : 8 ≤ (8 : Byte).toNat := by decide

theorem witness_register_seven_and_not : (3 : Reg) ≠ 7 ∧ (7 : Reg) = 7 := by decide

theorem witness_jump_flags : State.reset.fl = .equal ∧ (State.reset.setFlag .less).fl ≠ .equal := by decide

theorem witness_Flags_written : ∃ t, step (place (start 0 3 7 0) 0xA7 0x00 0x01) = .next t ∧
    t.fl ≠ (place (start 0 3 7 0) 0xA7 0x00 0x01).fl := ⟨_, rfl, by decide⟩

theorem witness_Flags_not_jump : ∀ a, Instr.hlt ≠ .jeq a ∧ Instr.hlt ≠ .jne a := by simp

theorem witness_Running : ∃ t u, exec .hlt ldi8 = .next t ∧ exec .ret ldi8 = .next u ∧ Instr.ret ≠ .hlt ∧
    step (place State.reset 0x01 0 0) = .next { place State.reset 0x01 0 0 with running := false } :=
  ⟨_, _, rfl, rfl, by decide, rfl⟩

theorem witness_Output : ∃ t, step (place (start 0 0 5 0) 0x47 0x01 0xFF) = .next t ∧ t.out = [5] := ⟨_, rfl, rfl⟩

theorem witness_RegistersWritten : ∃ t, exec (.pop 3) ldi8 = .next t ∧ (5 : Reg) ∉ regsWritten (.pop 3) :=
  ⟨_, rfl, by decide⟩

theorem witness_RegistersRead : (3 : Reg) ∉ regsRead (.pop 3) ldi8 ∧ (3 : Reg) ∈ regsWritten (.pop 3) ∧
    (5 : Reg) ∉ regsRead (.pop 3) ldi8 ∧ (5 : Reg) ∉ regsWritten (.pop 3) := by decide

theorem witness_ListedAccesses : ∃ t, step (place State.reset 0x45 0x00 0) = .next t := ⟨_, rfl⟩

/-- PUSH from reset: address 80 is neither read nor written, FF is written and not read. -/
theorem witness_StepDependsOnNoCell :
    let s := place (start 0 9 0 0) 0x45 0x00 0
    s.mem.wf ∧ Access.read 0x80 ∉ stepAccesses s ∧ Access.read 0xFF ∉ stepAccesses s ∧
      Access.write 0xFF 9 ∈ stepAccesses s := by decide

theorem witness_StepDependsOnNoCell_unwritten : ∀ w, Access.write 0x80 w ∉ stepAccesses ldi8 := by
  intro w h
  have : stepAccesses ldi8 = [.read 0, .read 1, .read 2] := by decide
  simp [this] at h

/-- A PUSH whose cell is the next opcode, the next first operand byte, the next second operand byte. -/
theorem witness_StoreIsSeen :
    let s := place (start 0 9 0 3) 0x45 0x00 0
    let u := place (start 0 9 0 4) 0x45 0x00 0
    let w := place (start 0 9 0 5) 0x45 0x00 0
    (∃ t, exec (.push 0) s = .next t ∧ Access.write 2 9 ∈ handlerAccesses (.push 0) s ∧ 2 = t.pc) ∧
    (∃ t, exec (.push 0) u = .next t ∧ Access.write 3 9 ∈ handlerAccesses (.push 0) u ∧ 3 = t.pc + 1) ∧
    (∃ t, exec (.push 0) w = .next t ∧ Access.write 4 9 ∈ handlerAccesses (.push 0) w ∧ 4 = t.pc + 2) :=
  ⟨⟨_, rfl, by decide, rfl⟩, ⟨_, rfl, by decide, rfl⟩, ⟨_, rfl, by decide, rfl⟩⟩

theorem witness_RetResumes : ∃ t, exec (.call 1) (start 6 0 0x0B 0) = .next t ∧ t.sp = 0xFF ∧
    t.mem.read t.sp = 0x08 := ⟨_, rfl, by decide, by decide⟩

theorem witness_Load_allowed : 255 + ([2] : List Nat).length ≤ 256 ∧ (∀ b ∈ ([2] : List Nat), b < 256) ∧
    ([2] : List Nat)[0]? = some 2 ∧ (254 : Byte).toNat < 255 := by decide

theorem witness_Load_refused : ¬ (255 + ([1, 2] : List Nat).length ≤ 256 ∧ ∀ b ∈ ([1, 2] : List Nat), b < 256) ∧
    ¬ (0 + ([256] : List Nat).length ≤ 256 ∧ ∀ b ∈ ([256] : List Nat), b < 256) := by decide

theorem witness_OnlyReset : State.canStep { State.reset with running := false } = false := by decide

theorem witness_EndedRun : (place State.reset 0x01 0 0).Inv ∧
    ((place State.reset 0x01 0 0).run 1).canStep = false ∧ (State.reset.run 1).canStep = false :=
  ⟨⟨by decide, by simp [place, State.reset, State.store], by simp [place, State.reset, State.store],
    by simp [place, State.reset, State.store]⟩, by decide, by decide⟩

/-- T8: JMP R0 to its own address runs for ever. -/
theorem witness_EndlessRun :
    let s := place (start 0x20 0x20 0 0) 0x54 0x00 0
    s.mem.wf ∧ ∀ n, (s.run n).canStep = true := by
  refine ⟨by decide, fun n => ?_⟩
  induction n with
  | zero => rfl
  | succ n ih => exact ih

end Sys2Proof.Tests
end

section
/-! PROOFS of the statements about the items of State that instructions hardly touch: the flags (R18), the Running flag
(R19) and the output (R25). Two facts carry them: which instruction writes each item (read off `Effect`), and
`exec_overwrite`, that what the three hold takes no part in an outcome but for the one test of `fl` in JEQ and JNE. -/

namespace Sys2Proof.Machine

variable {s t : State} {i : Instr}

@[simp] theorem sansOut_running (s : State) : s.sansOut.running = s.running := rfl
@[simp] theorem sansOut_fault (s : State) : s.sansOut.fault = s.fault := rfl
@[simp] theorem sansOut_fetch (s : State) : s.sansOut.fetch = s.fetch := rfl

theorem Effect.fl_eq_or_cmp (h : Effect s i t) : t.fl = s.fl ∨ ∃ a b, i = .cmp a b := by
  cases h with
  | cmp q r => exact .inr ⟨_, _, rfl⟩
  | jeq r => split <;> exact .inl rfl
  | jne r => split <;> exact .inl rfl
  | _ => exact .inl rfl

theorem Effect.running_eq_or_hlt (h : Effect s i t) : t.running = s.running ∨ i = .hlt := by
  cases h with
  | hlt => exact .inr rfl
  | jeq r => split <;> exact .inl rfl
  | jne r => split <;> exact .inl rfl
  | _ => exact .inl rfl

theorem Effect.out_eq_or_prn (h : Effect s i t) :
    t.out = s.out ∨ ∃ r, i = .prn (regByte r) ∧ t.out = s.out ++ [s.reg r] := by
  cases h with
  | prn r => exact .inr ⟨r, rfl, rfl⟩
  | jeq r => split <;> exact .inl rfl
  | jne r => split <;> exact .inl rfl
  | _ => exact .inl rfl

/-- Overwriting `fl`, `running` and `out` before an instruction changes at most these three after it, and of them only
those that were overwritten with another value. JEQ and JNE need the outcome of their test to be the same. -/
theorem exec_overwrite (i : Instr) (s : State) (f : Flag) (r : Bool) (o : List Byte)
    (htest : (∀ a, i ≠ .jeq a ∧ i ≠ .jne a) ∨ (f = .equal ↔ s.fl = .equal)) :
    ∃ t f' r' o', exec i s = .next t ∧
      exec i { s with fl := f, running := r, out := o } = .next { t with fl := f', running := r', out := o' } ∧
      (f = s.fl → f' = t.fl) ∧ (r = s.running → r' = t.running) ∧ (o = s.out → o' = t.out) := by
  obtain ⟨t, ht, he⟩ := exec_effect i s
  cases he with
  | bad h => exact ⟨_, f, r, o, ht, exec_of_not_wf _ h, id, id, id⟩
  | hlt => exact ⟨_, f, false, o, ht, exec_hlt _, id, fun _ => rfl, id⟩
  | ldi q imm => exact ⟨_, f, r, o, ht, exec_ldi .., id, id, id⟩
  | prn q => exact ⟨_, f, r, o ++ [s.reg q], ht, exec_prn .., id, id, congrArg (· ++ [s.reg q])⟩
  | add p q => exact ⟨_, f, r, o, ht, exec_add .., id, id, id⟩
  | mul p q => exact ⟨_, f, r, o, ht, exec_mul .., id, id, id⟩
  | push q => exact ⟨_, f, r, o, ht, exec_push .., id, id, id⟩
  | pop q => exact ⟨_, f, r, o, ht, exec_pop .., id, id, id⟩
  | call q => exact ⟨_, f, r, o, ht, exec_call .., id, id, id⟩
  | ret => exact ⟨_, f, r, o, ht, exec_ret _, id, id, id⟩
  | cmp p q => exact ⟨_, _, r, o, ht, exec_cmp .., fun _ => rfl, id, id⟩
  | jmp q => exact ⟨_, f, r, o, ht, exec_jmp .., id, id, id⟩
  | jeq q =>
    have hf : f = .equal ↔ s.fl = .equal := htest.resolve_left fun h => (h _).1 rfl
    split at ht
    · next h => exact ⟨_, f, r, o, ht, (exec_jeq ..).trans (congrArg _ (if_pos (hf.2 h))), id, id, id⟩
    · next h => exact ⟨_, f, r, o, ht, (exec_jeq ..).trans (congrArg _ (if_neg (hf.not.2 h))), id, id, id⟩
  | jne q =>
    have hf : f = .equal ↔ s.fl = .equal := htest.resolve_left fun h => (h _).2 rfl
    split at ht
    · next h => exact ⟨_, f, r, o, ht, (exec_jne ..).trans (congrArg _ (if_pos (hf.2 h))), id, id, id⟩
    · next h => exact ⟨_, f, r, o, ht, (exec_jne ..).trans (congrArg _ (if_neg (hf.not.2 h))), id, id, id⟩

/-- An outcome does not depend on `fl`, but for `fl` itself, where no jump tests it or the test has the same result. -/
theorem onNext_setFlag_exec_setFlag (i : Instr) (s : State) (f g : Flag)
    (htest : (∀ a, i ≠ .jeq a ∧ i ≠ .jne a) ∨ (f = .equal ↔ s.fl = .equal)) :
    onNext (State.setFlag · g) (exec i (s.setFlag f)) = onNext (State.setFlag · g) (exec i s) := by
  obtain ⟨t, f', r', o', hs, hu, -, hr, ho⟩ := exec_overwrite i s f s.running s.out htest
  obtain rfl := hr rfl
  obtain rfl := ho rfl
  rw [hs]
  exact (congrArg (onNext (State.setFlag · g)) hu).trans rfl

theorem onNext_running_exec_running (i : Instr) (s : State) (r q : Bool) :
    onNext (fun t => { t with running := q }) (exec i { s with running := r }) =
      onNext (fun t => { t with running := q }) (exec i s) := by
  obtain ⟨t, f', r', o', hs, hu, hf, -, ho⟩ := exec_overwrite i s s.fl r s.out (.inr .rfl)
  obtain rfl := hf rfl
  obtain rfl := ho rfl
  rw [hs]
  exact (congrArg (onNext fun t => { t with running := q }) hu).trans rfl

theorem onNext_sansOut_exec_sansOut (i : Instr) (s : State) :
    onNext State.sansOut (exec i s.sansOut) = onNext State.sansOut (exec i s) := by
  obtain ⟨t, f', r', o', hs, hu, hf, hr, -⟩ := exec_overwrite i s s.fl s.running [] (.inr .rfl)
  obtain rfl := hf rfl
  obtain rfl := hr rfl
  rw [hs]
  exact (congrArg (onNext State.sansOut) hu).trans rfl

theorem onNext_sansOut_step_sansOut (s : State) :
    onNext State.sansOut (step s.sansOut) = onNext State.sansOut (step s) := by
  simp only [step, sansOut_running, sansOut_fault, sansOut_fetch]
  split
  · rfl
  · rfl
  · split
    · rfl
    · exact onNext_sansOut_exec_sansOut ..

/-- Settles O30: a step that changes `fl` runs a CMP by `Effect.fl_eq_or_cmp`, and an outcome depends on `fl` in a
jump's test alone by `onNext_setFlag_exec_setFlag`; that test answers the same for LESS and for GREATER. -/
theorem flagsAreWrittenByCmpAndReadByJeqJne : Obligations.FlagsAreWrittenByCmpAndReadByJeqJne := by
  refine ⟨fun s t hstep hfl => ?_, fun a b s f => ?_, fun i s f g hi => ?_, fun i s g => ?_⟩
  · obtain ⟨-, -, ⟨b, -, rfl⟩ | ⟨i, hd, he⟩⟩ := step_next_cases hstep
    · exact absurd rfl hfl
    · obtain ⟨a, b, rfl⟩ := (effect_of_exec he).fl_eq_or_cmp.resolve_left hfl
      exact ⟨a, b, hd⟩
  · rw [exec_cmp, exec_cmp]
    rfl
  · exact onNext_setFlag_exec_setFlag i s f g (.inl hi)
  · exact onNext_setFlag_exec_setFlag i (s.setFlag .greater) .less g (.inr (by simp))

/-- Settles O31: `running` is written by HLT alone by `Effect.running_eq_or_hlt`, and a step is only taken from a
running machine. -/
theorem runningIsClearedByHltAlone : Obligations.RunningIsClearedByHltAlone := by
  refine ⟨rfl, fun i s t he => ⟨?_, ?_⟩, fun s t hstep hstopped => ?_, onNext_running_exec_running,
    fun s hstopped t hstep => ?_⟩
  · rintro rfl
    cases he
    rfl
  · exact (effect_of_exec he).running_eq_or_hlt.resolve_right
  · obtain ⟨hrun, -, ⟨b, -, rfl⟩ | ⟨i, hd, he⟩⟩ := step_next_cases hstep
    · exact absurd (hrun.symm.trans hstopped) (by decide)
    · have hkept : t.running ≠ s.running := by simp [hrun, hstopped]
      obtain rfl := (effect_of_exec he).running_eq_or_hlt.resolve_left hkept
      exact hd
  · exact absurd ((step_next_cases hstep).1.symm.trans hstopped) (by decide)

/-- Settles O32: an effect appends to the output in PRN alone by `Effect.out_eq_or_prn`, and a step does not read it
by `onNext_sansOut_step_sansOut`. -/
theorem outputIsAppendedByPrnAndNeverRead : Obligations.OutputIsAppendedByPrnAndNeverRead := by
  refine ⟨rfl, fun s t hstep => ?_, fun s => (onNext_sansOut_step_sansOut s).symm⟩
  obtain ⟨-, -, ⟨b, -, rfl⟩ | ⟨i, hd, he⟩⟩ := step_next_cases hstep
  · exact .inl rfl
  · obtain hout | ⟨r, rfl, hout⟩ := (effect_of_exec he).out_eq_or_prn
    · exact .inl hout
    · exact .inr ⟨r, hd, hout⟩

end Sys2Proof.Machine
end

section
/-! PROOF of the statement about memory (R31). One law carries it, `Memory.read_write`: a write is seen at its own
address and nowhere else. -/

namespace Sys2Proof.Machine

/-- The induction is from the last write backwards, since the last write decides first. -/
theorem Memory.read_foldl_write (m : Memory) (writes : List (Byte × Byte)) (a : Byte) :
    (writes.foldl (fun m w => m.write w.1 w.2) m).read a =
      ((writes.reverse.find? fun w => decide (w.1 = a)).map (·.2)).getD (m.read a) := by
  induction writes using List.reverseRecOn with
  | nil => rfl
  | append_singleton writes w ih =>
    rw [List.foldl_concat, List.reverse_concat', Memory.read_write]
    by_cases hw : w.1 = a
    · simp [hw]
    · simp [hw, Ne.symm hw, ih]

/-- Settles O35: reset memory lists no cell, and any writes in order are read back by `Memory.read_foldl_write`. -/
theorem memoryReadsTheMostRecentWrite : Obligations.MemoryReadsTheMostRecentWrite :=
  ⟨Memory.read_nil, Memory.read_foldl_write⟩

end Sys2Proof.Machine
end

section
/-! PROOFS of the statements about LDI and PRN (R81, R82). A completed instruction is read off `exec_ldi` and
`exec_prn`; a register byte above 7 is `takesRegisterFault_of_mem`, which holds of every instruction. -/

namespace Sys2Proof.Machine

/-- `pc` advances modulo 256 (R16, R37). -/
theorem advance_pc_toNat (s : State) (n : Nat) : (s.advance n).pc.toNat = (s.pc.toNat + n) % 256 := by
  simp [BitVec.toNat_add]

/-- One register byte above 7 is enough for the fault (R73, R122). -/
theorem takesRegisterFault_of_mem {i : Instr} {b : Byte} (hb : b ∈ i.regBytes) (h : 8 ≤ b.toNat) (s : State) :
    TakesRegisterFault i s :=
  ⟨_, rfl, rfl, exec_of_not_wf s ((wf_eq_false_iff i).2 ⟨b, hb, h⟩)⟩

theorem regsKept_setReg (s : State) (r : Reg) (v : Byte) : RegsKept s (s.setReg r v) [r] :=
  fun _ hq => reg_setReg_other s v (List.ne_of_not_mem_cons hq)

/-- Settles O18: the next state of `exec_ldi` writes `r` alone by `regsKept_setReg`, and only the register byte is
checked. -/
theorem ldiLoadsItsImmediate : Obligations.LdiLoadsItsImmediate := by
  refine fun s imm => ⟨fun a => rfl, fun r => ⟨_, exec_ldi s r imm, ?_⟩, fun a ha => ?_⟩
  · exact ⟨reg_setReg_same s r imm, advance_pc_toNat .., regsKept_setReg s r imm, fun _ _ => rfl, rfl, rfl, rfl, rfl⟩
  · exact takesRegisterFault_of_mem (List.mem_singleton_self a) ha s

/-- Settles O19: the next state of `exec_prn` differs in `pc` and `out` alone. -/
theorem prnAppendsItsRegisterToTheOutput : Obligations.PrnAppendsItsRegisterToTheOutput := by
  refine fun s => ⟨fun a => rfl, fun r => ⟨_, exec_prn s r, ?_⟩, fun a ha => ?_⟩
  · exact ⟨output_out s (s.reg r), advance_pc_toNat .., fun _ _ => rfl, fun _ _ => rfl, rfl, rfl, rfl⟩
  · exact takesRegisterFault_of_mem (List.mem_singleton_self a) ha s

end Sys2Proof.Machine
end

section
/-! PROOF of the statement about PUSH (R94). A completed PUSH is read off `exec_push`; what it writes and leaves is that
of the push it makes (R92), stated here for any pushed value. -/

namespace Sys2Proof.Machine

/-- SP is decremented modulo 256 (R92, D6). -/
theorem pushAddr_toNat (s : State) : s.pushAddr.toNat = (s.sp.toNat + 255) % 256 := by
  simp [State.pushAddr, BitVec.toNat_sub, Nat.add_comm]

theorem regsKept_push (s : State) (v : Byte) : RegsKept s (s.push v) [Config.spIndex] :=
  fun q hq => (push_reg s q v).trans (if_neg (List.ne_of_not_mem_cons hq))

theorem cellsKept_push (s : State) (v : Byte) : CellsKept s (s.push v) [s.pushAddr] :=
  fun _ ha => Memory.read_write_other s.mem v (List.ne_of_not_mem_cons ha)

theorem read_push_pushAddr (s : State) (v : Byte) : (s.push v).mem.read s.pushAddr = v :=
  Memory.read_write_same s.mem s.pushAddr v

/-- Settles O23: the next state of `exec_push` pushes `x[r]` as `s` has it, so `r = 7` stores the old SP, and its
`advance` touches `pc` alone. -/
theorem pushStoresBelowTheStackPointer : Obligations.PushStoresBelowTheStackPointer := by
  refine fun s => ⟨fun a => rfl, pushAddr_toNat s, fun r => ⟨_, exec_push s r, ?_⟩, fun a ha => ?_⟩
  · exact ⟨push_sp s (s.reg r), read_push_pushAddr s (s.reg r), advance_pc_toNat .., regsKept_push s (s.reg r),
      cellsKept_push s (s.reg r), rfl, rfl, rfl, rfl⟩
  · exact takesRegisterFault_of_mem (List.mem_singleton_self a) ha s

end Sys2Proof.Machine
end

section
/-! PROOFS of the statements about RET and JMP (R101, R102). Each next state is read off `exec_ret` or `exec_jmp`; what
a RET writes and leaves is that of the pop it makes (R93), since its `jump` touches `pc` alone. -/

namespace Sys2Proof.Machine

/-- SP is incremented modulo 256 (R93, D6). -/
theorem pop_sp_toNat (s : State) : s.pop.2.sp.toNat = (s.sp.toNat + 1) % 256 := by
  simp [BitVec.toNat_add]

theorem regsKept_pop (s : State) : RegsKept s s.pop.2 [Config.spIndex] :=
  regsKept_setReg s Config.spIndex (s.sp + 1)

/-- Settles O26: the next state of `exec_ret` jumps to the popped byte from the state after the pop, and the decoder
binds no operand byte for opcode 11. -/
theorem retPopsTheProgramCounter : Obligations.RetPopsTheProgramCounter := by
  refine fun s => ⟨rfl, fun a b => rfl, _, exec_ret s, ?_⟩
  exact ⟨jump_pc .., pop_sp_toNat s, regsKept_pop s, fun _ _ => rfl, rfl, rfl, rfl, rfl⟩

/-- Settles O27: the next state of `exec_jmp` differs in `pc` alone. -/
theorem jmpSetsTheProgramCounter : Obligations.JmpSetsTheProgramCounter := by
  refine fun s => ⟨fun a => rfl, fun r => ⟨_, exec_jmp s r, ?_⟩, fun a ha => ?_⟩
  · exact ⟨jump_pc .., fun _ _ => rfl, fun _ _ => rfl, rfl, rfl, rfl, rfl⟩
  · exact takesRegisterFault_of_mem (List.mem_singleton_self a) ha s

end Sys2Proof.Machine
end

section
/-! PROOFS of the statements about the decoder and the encoder (R50 to R61, R72). `decode_eq_insn_iff` says once what
the decoder reads: the opcode of the instruction, followed by its operand bytes. -/

namespace Sys2Proof

open Machine

/-- An instruction that the decoder reads is made by the row of its opcode byte. -/
theorem exists_mem_opcodeMap_of_decode {ir opa opb : Byte} {i : Instr} (h : decode ir opa opb = .insn i) :
    ∃ mk, (ir, mk) ∈ opcodeMap ∧ i = mk opa opb := by
  unfold decode at h
  split at h
  · next mk hmk =>
    obtain ⟨before, after, hmap, -⟩ := List.lookup_eq_some_iff.1 hmk
    cases h
    exact ⟨mk, by simp [hmap], rfl⟩
  · cases h

/-- Each row of the opcode map makes an instruction of that row's opcode out of the operand bytes its format uses. -/
theorem opcode_operands_of_mem_opcodeMap (opa opb : Byte) : ∀ row ∈ opcodeMap,
    row.1 = (row.2 opa opb).opcode ∧ (row.2 opa opb).operands <+: [opa, opb] := by
  simp [opcodeMap, Instr.opcode, Instr.operands]

/-- The opcode of an instruction and its operand bytes, whatever follows them, are read as that instruction. -/
theorem decode_opcode_of_operands_prefix (i : Instr) {opa opb : Byte} (h : i.operands <+: [opa, opb]) :
    decode i.opcode opa opb = .insn i := by
  obtain ⟨unused, h⟩ := h
  cases i <;> cases h <;> rfl

theorem decode_eq_insn_iff {ir opa opb : Byte} {i : Instr} :
    decode ir opa opb = .insn i ↔ ir = i.opcode ∧ i.operands <+: [opa, opb] := by
  constructor
  · intro h
    obtain ⟨mk, hmem, rfl⟩ := exists_mem_opcodeMap_of_decode h
    exact opcode_operands_of_mem_opcodeMap opa opb _ hmem
  · rintro ⟨rfl, h⟩
    exact decode_opcode_of_operands_prefix i h

theorem operands_length_le_two (i : Instr) : i.operands.length ≤ 2 := by
  cases i <;> simp [Instr.operands]

/-- Settles O13: the bytes after the opcode begin with the operands, and there are at most two of these. -/
theorem decodeOfEncodeIsTheInstruction : Obligations.DecodeOfEncodeIsTheInstruction := by
  intro i after tail ir opa opb h
  obtain ⟨rfl, hrest⟩ := List.cons.inj h
  have hoperands : i.operands <+: [opa, opb] ++ tail := ⟨after, hrest⟩
  exact decode_opcode_of_operands_prefix i
    (List.prefix_of_prefix_length_le hoperands (List.prefix_append ..) (operands_length_le_two i))

/-- Bits 7:6 of an opcode count its operand bytes (R57, R58). -/
theorem length_eq_one_add_opcode_div (i : Instr) : i.length = 1 + i.opcode.toNat / 64 := by
  cases i <;> simp [Instr.length, Instr.operands, Instr.opcode]

/-- Settles O14: the operands are the first of the two candidate bytes, as many as there are operands. -/
theorem decodedInstructionEncodesToItsBytes : Obligations.DecodedInstructionEncodesToItsBytes := by
  intro ir opa opb i h
  obtain ⟨rfl, hoperands⟩ := decode_eq_insn_iff.1 h
  refine ⟨?_, length_eq_one_add_opcode_div i⟩
  rw [Instr.length, Nat.add_comm, List.take_succ_cons, ← List.prefix_iff_eq_take.1 hoperands]
  rfl

/-- Settles O16: by `decode_opcode_of_operands_prefix` only as many operand bytes take part as the instruction has
operands, none or the first. -/
theorem unusedOperandBytesAreIgnored : Obligations.UnusedOperandBytesAreIgnored := by
  intro ir opa opb opa' opb' i h
  obtain ⟨rfl, hoperands⟩ := decode_eq_insn_iff.1 h
  refine ⟨fun hlen => ?_, fun hlen => ?_⟩ <;> refine decode_opcode_of_operands_prefix i ?_
  · have hnone : i.operands = [] := List.eq_nil_of_length_eq_zero (Nat.add_left_cancel hlen)
    exact hnone ▸ List.nil_prefix
  · have hlen' : i.operands.length = 1 := Nat.add_left_cancel hlen
    have hone : i.operands = [opa] := (List.prefix_iff_eq_take.1 hoperands).trans (by rw [hlen']; rfl)
    exact hone ▸ List.prefix_append ..

/-- A byte that is rejected is no opcode (R59). -/
theorem not_mem_knownOpcodes_of_decode {ir opa opb b : Byte} (h : decode ir opa opb = .invalidOpcode b) :
    ir ∉ knownOpcodes := by
  have hb : b = ir := by
    unfold decode at h
    split at h <;> cases h
    rfl
  exact (decode_invalid_iff ir opa opb).1 (hb ▸ h)

/-- The known opcodes (R62) in rising order. -/
theorem mem_knownOpcodes_iff (ir : Byte) : ir ∈ knownOpcodes ↔
    ir ∈ ([0x01, 0x11, 0x45, 0x46, 0x47, 0x50, 0x54, 0x55, 0x56, 0x82, 0xA0, 0xA2, 0xA7] : List Byte) :=
  (by decide : knownOpcodes.Perm _).mem_iff

/-- Settles O15: the 13 rows are looked up, and `decode_invalid_iff` rejects the bytes outside them. -/
theorem opcodeBytesDecodeAsTheTableSays : Obligations.OpcodeBytesDecodeAsTheTableSays := fun a b =>
  ⟨rfl, rfl, rfl, rfl, rfl, rfl, rfl, rfl, rfl, rfl, rfl, rfl, rfl,
    fun ir h => (decode_invalid_iff ir a b).2 fun hk => h ((mem_knownOpcodes_iff ir).1 hk)⟩

end Sys2Proof
end

section
/-! PROOFS of the statements about the step and the machine invariant (R70 to R75, R146). A step is taken or not by
`step_of_halted`, `step_of_latched` and `exists_step_of_running`; when it is taken, `step_next_fault_cases` says what
the latch holds after it, which is all of the invariant that is not about memory or HLT. -/

namespace Sys2Proof.Machine

variable {s t : State} {i : Instr}

theorem step_of_halted (hr : s.running = false) : step s = .fault .halted := by simp only [step, hr]

theorem step_of_latched {f : FaultRecord} (hr : s.running = true) (hf : s.fault = some f) :
    step s = .fault .faultLatched := by simp only [step, hr, hf]

/-- What stops a machine is in `running` and `fault` alone (R70). -/
theorem step_eq_fault_of_not_canStep (h : s.canStep = false) :
    ∃ e, ∀ u : State, u.running = s.running → u.fault = s.fault → step u = .fault e := by
  cases hr : s.running with
  | false => exact ⟨.halted, fun _ hu _ => step_of_halted hu⟩
  | true =>
    cases hf : s.fault with
    | none => simp [(canStep_iff s).2 ⟨hr, hf⟩] at h
    | some f => exact ⟨.faultLatched, fun _ hu hv => step_of_latched hu hv⟩

theorem step_of_insn (hr : s.running = true) (hf : s.fault = none)
    (hd : decode (s.mem.read s.pc) (s.mem.read (s.pc + 1)) (s.mem.read (s.pc + 2)) = .insn i) :
    step s = exec i s := by simp only [step, hr, hf, fetch_ir, fetch_opa, fetch_opb, hd]

theorem exists_step_of_running (hr : s.running = true) (hf : s.fault = none) : ∃ t, step s = .next t := by
  cases hd : decode (s.mem.read s.pc) (s.mem.read (s.pc + 1)) (s.mem.read (s.pc + 2)) with
  | insn i =>
    obtain ⟨t, ht, -⟩ := exec_effect i s
    exact ⟨t, (step_of_insn hr hf hd).trans ht⟩
  | invalidOpcode b => exact ⟨_, step_of_invalid hr hf hd⟩

/-- Settles O5: the step unfolds to the instruction's meaning. -/
theorem stepRunsTheDecodedInstruction : Obligations.StepRunsTheDecodedInstruction :=
  fun _ _ hr hf hd => step_of_insn hr hf hd

/-- Settles O6: the bytes at `pc + 1` and `pc + 2` begin with the operands, so the decoder reads the instruction by
`decode_opcode_of_operands_prefix`. -/
theorem encodedInstructionAtPcIsRun : Obligations.EncodedInstructionAtPcIsRun := by
  intro s i hr hf hbytes
  have hopcode : s.mem.read s.pc = i.opcode := by simpa using hbytes 0 i.opcode rfl
  have hoperands : i.operands <+: [s.mem.read (s.pc + 1), s.mem.read (s.pc + 2)] := by
    refine List.prefix_iff_getElem?.2 fun k hk => ?_
    have hbyte := hbytes (k + 1) i.operands[k] (by simp [encode])
    match k, hk.trans_le (operands_length_le_two i) with
    | 0, _ => exact congrArg some hbyte
    | 1, _ => exact congrArg some hbyte
  exact step_of_insn hr hf (hopcode ▸ decode_opcode_of_operands_prefix i hoperands)

/-- Settles O7: a step needs a running machine with an empty latch by `step_next_cases`, and gets taken there by
`exists_step_of_running`. -/
theorem stepIsTakenExactlyWhenRunningAndFaultFree : Obligations.StepIsTakenExactlyWhenRunningAndFaultFree := by
  refine fun s => ⟨⟨fun ⟨t, hstep⟩ => ?_, fun ⟨hr, hf⟩ => exists_step_of_running hr hf⟩, step_of_halted,
    fun hr hf => ?_⟩
  · obtain ⟨hr, hf, -⟩ := step_next_cases hstep
    exact ⟨hr, hf⟩
  · obtain ⟨f, hf⟩ := Option.ne_none_iff_exists'.1 hf
    exact step_of_latched hr hf

/-- An instruction fills the latch in the operand check alone (R74, R122). -/
theorem Effect.fault_eq_or_not_wf (h : Effect s i t) :
    t.fault = s.fault ∨ (i.wf = false ∧ t = s.raise .registerIndexFault) := by
  cases h with
  | bad h => exact .inr ⟨h, rfl⟩
  | jeq r => split <;> exact .inl rfl
  | jne r => split <;> exact .inl rfl
  | _ => exact .inl rfl

/-- Settles O8: every instruction answers a next state by `exec_effect`, and only an ill-formed one fills the latch by
`Effect.fault_eq_or_not_wf`. -/
theorem wellFormedInstructionCompletesWithoutFault : Obligations.WellFormedInstructionCompletesWithoutFault := by
  intro i s hw
  obtain ⟨t, ht, he⟩ := exec_effect i s
  exact ⟨t, ht, he.fault_eq_or_not_wf.resolve_right fun ⟨hn, _⟩ => by simp [hw] at hn⟩

/-- What a step can leave in the latch: nothing, the invalid opcode fault of a byte that is no opcode, or the register
index fault of a decoded instruction that is ill formed; and a fault is all that such a step does. -/
theorem step_next_fault_cases (h : step s = .next t) :
    t.fault = none ∨
    (t = s.raise .invalidOpcode ∧ s.mem.read s.pc ∉ knownOpcodes) ∨
    (t = s.raise .registerIndexFault ∧ ∃ i,
      decode (s.mem.read s.pc) (s.mem.read (s.pc + 1)) (s.mem.read (s.pc + 2)) = .insn i ∧ i.wf = false) := by
  obtain ⟨-, hf, ⟨b, hd, ht⟩ | ⟨i, hd, he⟩⟩ := step_next_cases h
  · exact .inr (.inl ⟨ht, not_mem_knownOpcodes_of_decode hd⟩)
  · obtain hkept | ⟨hw, ht⟩ := (effect_of_exec he).fault_eq_or_not_wf
    · exact .inl (hkept.trans hf)
    · exact .inr (.inr ⟨ht, i, hd, hw⟩)

/-- The clauses of `State.Inv` about a halted machine and a filled latch say nothing of a machine that may step. -/
theorem inv_of_canStep (hm : s.mem.wf) (h : s.canStep = true) : s.Inv := by
  obtain ⟨hr, hf⟩ := (canStep_iff s).1 h
  exact ⟨hm, by simp [hr], by simp [hf], by simp [hf]⟩

/-- Fault entry from a machine that may step, with a cause that the fetched bytes justify. -/
theorem inv_raise {c : Cause} (hm : s.mem.wf) (hr : s.running = true)
    (hc : (c = .invalidOpcode ∧ s.mem.read s.pc ∉ knownOpcodes) ∨
      (c = .registerIndexFault ∧ ∃ i,
        decode (s.mem.read s.pc) (s.mem.read (s.pc + 1)) (s.mem.read (s.pc + 2)) = .insn i ∧ i.wf = false)) :
    (s.raise c).Inv := by
  refine ⟨hm, by simp [hr], fun f hf => ?_, fun f hf => ?_⟩
  · obtain rfl := Option.some.inj hf
    exact ⟨rfl, rfl, rfl, rfl⟩
  · obtain rfl := Option.some.inj hf
    exact hc

theorem decode_eq_hlt_iff {ir opa opb : Byte} : decode ir opa opb = .insn .hlt ↔ ir = 0x01 := by
  simp [decode_eq_insn_iff, Instr.opcode, Instr.operands]

/-- A step that clears the Running flag ran a HLT. -/
theorem step_next_halted (h : step s = .next t) (hrun : t.running = false) :
    t = s.halt ∧ s.mem.read s.pc = 0x01 := by
  obtain ⟨-, -, stopped_by_hlt, -⟩ := runningIsClearedByHltAlone
  obtain ⟨hr, hf, -⟩ := step_next_cases h
  have hd := stopped_by_hlt s t h hrun
  rw [step_of_insn hr hf hd, exec_hlt] at h
  cases h
  exact ⟨rfl, decode_eq_hlt_iff.1 hd⟩

/-- Settles O2: reset memory lists no cell, and the reset machine may step. -/
theorem resetSatisfiesTheMachineInvariant : Obligations.ResetSatisfiesTheMachineInvariant :=
  inv_of_canStep Memory.wf_nil rfl

/-- Settles O3: a LOAD touches memory alone, and keeps its canonical form by `wf_loadBytes`. -/
theorem loadedMachineSatisfiesTheInvariant : Obligations.LoadedMachineSatisfiesTheInvariant := by
  intro s t bytes start hinv hcan hload
  unfold State.load at hload
  split at hload
  · obtain rfl := Option.some.inj hload
    exact ⟨inv_of_canStep (wf_loadBytes bytes start hinv.memWf) hcan, hcan⟩
  · cases hload

/-- Settles O4: a step that faults gives `inv_raise` by `step_next_fault_cases`; one that stops the machine ran a HLT,
which leaves `pc` and memory as they are; after any other the machine may step again. -/
theorem stepKeepsTheMachineInvariant : Obligations.StepKeepsTheMachineInvariant := by
  intro s t hinv hstep
  obtain ⟨hr, -, -⟩ := step_next_cases hstep
  obtain hf | ⟨rfl, hk⟩ | ⟨rfl, hi⟩ := step_next_fault_cases hstep
  · cases hrun : t.running with
    | true => exact inv_of_canStep (wf_step hinv.memWf hstep) ((canStep_iff t).2 ⟨hrun, hf⟩)
    | false =>
      obtain ⟨rfl, hopcode⟩ := step_next_halted hstep hrun
      exact ⟨hinv.memWf, fun _ => ⟨hf, hopcode⟩, hinv.recordBytes, hinv.recordCause⟩
  · exact inv_raise hinv.memWf hr (.inl ⟨rfl, hk⟩)
  · exact inv_raise hinv.memWf hr (.inr ⟨rfl, hi⟩)

end Sys2Proof.Machine
end

section
/-! PROOFS of the statements about faults (R120 to R127): each reads off `step_next_fault_cases` which fault a step
takes, and `State.raise` writes the record. -/

namespace Sys2Proof.Machine

/-- Settles O9: the decoder rejects a byte outside the map by `decode_invalid_iff`, and the filled latch stops the next
step; a byte in the map shuts out that case of `step_next_fault_cases`. -/
theorem unknownOpcodeRaisesInvalidOpcode : Obligations.UnknownOpcodeRaisesInvalidOpcode := by
  refine fun s hr hf => ⟨fun hunknown => ?_, fun hknown t f hstep hfault => ?_⟩
  · have hd := (decode_invalid_iff _ (s.mem.read (s.pc + 1)) (s.mem.read (s.pc + 2))).2
      fun h => hunknown ((mem_knownOpcodes_iff _).1 h)
    exact ⟨_, step_of_invalid hr hf hd, step_of_latched hr rfl, rfl⟩
  · obtain hnone | ⟨-, hk⟩ | ⟨rfl, -⟩ := step_next_fault_cases hstep
    · simp [hnone] at hfault
    · exact absurd ((mem_knownOpcodes_iff _).2 hknown) hk
    · cases hfault
      simp

/-- A decoded instruction is ill formed exactly when an operand byte that it uses as a register byte is above 7: `opa`
with eleven opcodes, `opb` with three (R73). -/
theorem wf_eq_false_iff_of_decode {ir opa opb : Byte} {i : Instr} (h : decode ir opa opb = .insn i) :
    i.wf = false ↔
      (ir ∈ ([0x45, 0x46, 0x47, 0x50, 0x54, 0x55, 0x56, 0x82, 0xA0, 0xA2, 0xA7] : List Byte) ∧ 8 ≤ opa.toNat) ∨
        (ir ∈ ([0xA0, 0xA2, 0xA7] : List Byte) ∧ 8 ≤ opb.toNat) := by
  obtain ⟨rfl, unused, hoperands⟩ := decode_eq_insn_iff.1 h
  rw [wf_eq_false_iff]
  cases i <;> cases hoperands <;> simp [Instr.regBytes, Instr.opcode]

/-- Settles O10: the bad bytes are those of an ill-formed instruction by `wf_eq_false_iff_of_decode`, since they are
spoken of for known opcodes alone. -/
theorem registerByteAboveSevenFaults : Obligations.RegisterByteAboveSevenFaults := by
  refine fun s hr hf => ⟨fun hbad => ?_, fun hgood t f hstep hfault => ?_⟩
  · cases hd : decode (s.mem.read s.pc) (s.mem.read (s.pc + 1)) (s.mem.read (s.pc + 2)) with
    | insn i =>
      exact (step_of_insn hr hf hd).trans (exec_of_not_wf s ((wf_eq_false_iff_of_decode hd).2 hbad))
    | invalidOpcode b =>
      refine absurd ((mem_knownOpcodes_iff _).2 ?_) (not_mem_knownOpcodes_of_decode hd)
      obtain ⟨hir, -⟩ | ⟨hir, -⟩ := hbad
      · exact List.Sublist.mem hir (by decide)
      · exact List.Sublist.mem hir (by decide)
  · obtain hnone | ⟨rfl, -⟩ | ⟨-, i, hd, hw⟩ := step_next_fault_cases hstep
    · simp [hnone] at hfault
    · cases hfault
      simp
    · exact absurd ((wf_eq_false_iff_of_decode hd).1 hw) hgood

/-- Settles O11: a step that leaves a filled latch is a `State.raise` with one of the two causes of
`step_next_fault_cases`. -/
theorem faultsArePreciseAndNeverTheAlus : Obligations.FaultsArePreciseAndNeverTheAlus := by
  intro s t f hstep hfault
  obtain hnone | ⟨rfl, -⟩ | ⟨rfl, -⟩ := step_next_fault_cases hstep
  · simp [hnone] at hfault
  · cases hfault
    exact ⟨rfl, rfl, rfl, rfl, rfl, .inl rfl⟩
  · cases hfault
    exact ⟨rfl, rfl, rfl, rfl, rfl, .inr rfl⟩

end Sys2Proof.Machine
end

section
/-! PROOFS of the statements about single instructions: the ALU block and ADD, MUL, CMP (R85 to R88), HLT (R80), POP
(R95), CALL (R100), JEQ and JNE (R103, R104). Each next state is read off the `exec_` lemma of its instruction. -/

namespace Sys2Proof.Machine

theorem RegsKept.trans {s t u : State} {l m : List Reg} (h : RegsKept s t l) (h' : RegsKept t u m) :
    RegsKept s u (l ++ m) := by
  intro q hq
  rw [List.mem_append, not_or] at hq
  exact (h' q hq.2).trans (h q hq.1)

/-! ### The ALU -/

/-- Each flag value is the one order of the operands that CMP writes it for (R88). -/
theorem compareFlag_eq_iff (x y : Byte) :
    (compareFlag x y = .less ↔ x.toNat < y.toNat) ∧ (compareFlag x y = .greater ↔ y.toNat < x.toNat) ∧
      (compareFlag x y = .equal ↔ x = y) := by
  obtain ⟨hflag, hlt⟩ | ⟨hflag, hlt⟩ | ⟨hflag, rfl⟩ := compareFlag_cases x y
  · have hne : x ≠ y := fun h => by simp [h] at hlt
    simp [hflag, hlt, hlt.le, hne]
  · have hne : x ≠ y := fun h => by simp [h] at hlt
    simp [hflag, hlt, hlt.le, hne]
  · simp [hflag]

/-- Settles O12: the ALU's one write is `setReg` or `setFlag`, its value that of `aluAdd_toNat`, `aluMul_toNat` or
`compareFlag_eq_iff`. -/
theorem aluWritesOneResultAndLeavesPc : Obligations.AluWritesOneResultAndLeavesPc := by
  refine fun a b s => ⟨⟨_, rfl, ?_⟩, ⟨_, rfl, ?_⟩, ⟨_, rfl, rfl, ?_⟩, rfl⟩
  · rw [reg_setReg_same]
    exact ⟨rfl, aluAdd_toNat .., regsKept_setReg _ _ _, fun _ _ => rfl, rfl, rfl, rfl, rfl, rfl⟩
  · rw [reg_setReg_same]
    exact ⟨rfl, aluMul_toNat .., regsKept_setReg _ _ _, fun _ _ => rfl, rfl, rfl, rfl, rfl, rfl⟩
  · obtain ⟨hless, hgreater, hequal⟩ := compareFlag_eq_iff (s.reg a) (s.reg b)
    exact ⟨hless, hgreater, hequal, fun _ _ => rfl, fun _ _ => rfl, rfl, rfl, rfl, rfl⟩

/-- The operand check of an instruction with two register bytes, from either of them. -/
theorem takesRegisterFault_of_pair {i : Instr} {a b : Byte} (hi : i.regBytes = [a, b])
    (h : 8 ≤ a.toNat ∨ 8 ≤ b.toNat) (s : State) : TakesRegisterFault i s := by
  obtain h | h := h
  · exact takesRegisterFault_of_mem (b := a) (by simp [hi]) h s
  · exact takesRegisterFault_of_mem (b := b) (by simp [hi]) h s

/-- Settles O20: the next state of `exec_add` writes the sum of `aluAdd_toNat` to `a` alone. -/
theorem addWritesTheSumModulo256 : Obligations.AddWritesTheSumModulo256 := by
  refine fun s => ⟨fun a b => ⟨_, exec_add s a b, ?_⟩, fun a b h => takesRegisterFault_of_pair rfl h s⟩
  rw [advance_reg, reg_setReg_same]
  exact ⟨aluAdd_toNat .., advance_pc_toNat .., regsKept_setReg _ _ _, fun _ _ => rfl, rfl, rfl, rfl, rfl⟩

/-- Settles O21: the next state of `exec_mul` writes the product of `aluMul_toNat` to `a` alone. -/
theorem mulWritesTheProductModulo256 : Obligations.MulWritesTheProductModulo256 := by
  refine fun s => ⟨fun a b => ⟨_, exec_mul s a b, ?_⟩, fun a b h => takesRegisterFault_of_pair rfl h s⟩
  rw [advance_reg, reg_setReg_same]
  exact ⟨aluMul_toNat .., advance_pc_toNat .., regsKept_setReg _ _ _, fun _ _ => rfl, rfl, rfl, rfl, rfl⟩

/-- Settles O22: the next state of `exec_cmp` replaces `fl` by the order of `compareFlag_eq_iff`. -/
theorem cmpSetsTheFlagsByUnsignedOrder : Obligations.CmpSetsTheFlagsByUnsignedOrder := by
  refine fun s => ⟨fun a b => ⟨_, exec_cmp s a b, ?_⟩, fun a b h => takesRegisterFault_of_pair rfl h s⟩
  obtain ⟨hless, hgreater, hequal⟩ := compareFlag_eq_iff (s.reg a) (s.reg b)
  exact ⟨hless, hgreater, hequal, advance_pc_toNat .., fun _ _ => rfl, fun _ _ => rfl, rfl, rfl, rfl⟩

/-! ### HLT, POP, CALL and the conditional jumps -/

/-- Settles O17: the next state of `exec_hlt` differs in `running` alone, and a halted machine takes no step. -/
theorem hltClearsRunningAndStays : Obligations.HltClearsRunningAndStays :=
  fun s => ⟨rfl, fun _ _ => rfl, _, exec_hlt s, rfl, rfl, fun _ _ => rfl, fun _ _ => rfl, rfl, rfl, rfl,
    step_of_halted rfl⟩

/-- Settles O24: the next state of `exec_pop` pops (R93) and then writes `r`, so for `r = 7` the popped byte stands. -/
theorem popLoadsFromTheStackPointer : Obligations.PopLoadsFromTheStackPointer := by
  refine fun s => ⟨fun r => ⟨_, exec_pop s r, ?_⟩, fun a ha => ?_⟩
  · refine ⟨reg_setReg_same .., fun hr => ?_, advance_pc_toNat .., (regsKept_pop s).trans (regsKept_setReg _ _ _),
      fun _ _ => rfl, rfl, rfl, rfl, rfl⟩
    have hsp : Config.spIndex ≠ r := fun h => hr h.symm
    rw [advance_sp, sp_setReg, if_neg hsp, pop_sp_toNat]
  · exact takesRegisterFault_of_mem (List.mem_singleton_self a) ha s

/-- The return address is taken modulo 256 (R100, D5). -/
theorem returnAddr_toNat (s : State) : s.returnAddr.toNat = (s.pc.toNat + 2) % 256 := advance_pc_toNat s 2

/-- Settles O25: the next state of `exec_call` pushes the return address (R92) and jumps to the register as the push
left it. -/
theorem callPushesTheReturnAddressAndJumps : Obligations.CallPushesTheReturnAddressAndJumps := by
  refine fun s => ⟨pushAddr_toNat s, fun r => ⟨_, exec_call s r, ?_⟩, fun a ha => ?_⟩
  · refine ⟨push_sp s s.returnAddr, ?_, fun hr => if_neg hr, fun hr => if_pos hr,
      regsKept_push s s.returnAddr, cellsKept_push s s.returnAddr, rfl, rfl, rfl, rfl⟩
    rw [jump_mem, read_push_pushAddr, returnAddr_toNat]
  · exact takesRegisterFault_of_mem (List.mem_singleton_self a) ha s

/-- Settles O28: both arms of `exec_jeq` write `pc` alone. -/
theorem jeqBranchesExactlyOnEqual : Obligations.JeqBranchesExactlyOnEqual := by
  refine fun s => ⟨fun r => ⟨_, exec_jeq s r, ?_⟩, fun a ha => ?_⟩
  · split
    · next h => exact ⟨fun _ => rfl, fun hne => absurd h hne, fun _ _ => rfl, fun _ _ => rfl, rfl, rfl, rfl, rfl⟩
    · next h => exact ⟨fun he => absurd he h, fun _ => advance_pc_toNat .., fun _ _ => rfl, fun _ _ => rfl, rfl,
        rfl, rfl, rfl⟩
  · exact takesRegisterFault_of_mem (List.mem_singleton_self a) ha s

/-- Settles O29: both arms of `exec_jne` write `pc` alone. -/
theorem jneBranchesExactlyOnNotEqual : Obligations.JneBranchesExactlyOnNotEqual := by
  refine fun s => ⟨fun r => ⟨_, exec_jne s r, ?_⟩, fun a ha => ?_⟩
  · split
    · next h => exact ⟨fun hne => absurd h hne, fun _ => advance_pc_toNat .., fun _ _ => rfl, fun _ _ => rfl, rfl,
        rfl, rfl, rfl⟩
    · next h => exact ⟨fun _ => rfl, fun he => absurd he h, fun _ _ => rfl, fun _ _ => rfl, rfl, rfl, rfl, rfl⟩
  · exact takesRegisterFault_of_mem (List.mem_singleton_self a) ha s

end Sys2Proof.Machine
end

section
/-! PROOFS of the statements about the pairs that undo each other: PUSH with POP (R94, R95), CALL with RET (R106). A
pop that meets the SP of a push restores it, by `pushAddr_add_one`, and reads what the push stored. -/

namespace Sys2Proof.Machine

theorem pushAddr_add_one (s : State) : s.pushAddr + 1 = s.sp := BitVec.sub_add_cancel ..

/-- A pop that meets the SP of a push restores every register but those written between them, SP included. -/
theorem regsKept_pop_of_sp_eq_pushAddr {s t : State} (hsp : t.sp = s.pushAddr) (hkept : RegsKept s t [Config.spIndex]) :
    RegsKept s t.pop.2 [] := by
  intro q _
  rw [pop_reg, hsp, pushAddr_add_one]
  split
  · next hq => rw [hq, State.sp]
  · next hq => exact hkept q (by simpa using hq)

/-- Settles O39: PUSH leaves SP on the byte that it stored, so POP reads that byte, and its pop restores the registers
by `regsKept_pop_of_sp_eq_pushAddr`. -/
theorem pushThenPopCopiesTheRegister : Obligations.PushThenPopCopiesTheRegister := by
  intro s a b
  refine ⟨_, _, exec_push s a, exec_pop _ b, ?_, ?_, cellsKept_push s (s.reg a), ?_, rfl, rfl, rfl, rfl⟩
  · simp
  · have hrestored := regsKept_pop_of_sp_eq_pushAddr (push_sp s (s.reg a)) (regsKept_push s (s.reg a))
    exact hrestored.trans (regsKept_setReg _ b _)
  · rw [advance_pc_toNat, setReg_pc, pop_pc, advance_pc_toNat, push_pc]
    omega

/-- Settles O40: `u` has SP on the return address that the CALL stored, so RET pops it and restores SP. -/
theorem retResumesAfterItsCall : Obligations.RetResumesAfterItsCall := by
  refine fun s r => ⟨_, exec_call s r, fun u hsp hcell => ⟨_, exec_ret u, ?_, ?_, regsKept_pop u⟩⟩
  · rw [jump_pc, hcell, jump_sp, push_sp, jump_mem, read_push_pushAddr, returnAddr_toNat]
  · rw [jump_sp, pop_sp, hsp, jump_sp, push_sp, pushAddr_add_one]

end Sys2Proof.Machine
end

section
/-! PROOFS of the statements about the table of register reads and writes (R13). Both go through the effects of
instructions on register bytes that name registers, where the lists of `regsRead` and `regsWritten` are plain. -/

namespace Sys2Proof.Machine

variable {s t : State} {i : Instr}

@[simp] theorem regsKept_advance_iff {n : Nat} {l : List Reg} : RegsKept s (t.advance n) l ↔ RegsKept s t l := .rfl
@[simp] theorem regsKept_jump_iff {a : Byte} {l : List Reg} : RegsKept s (t.jump a) l ↔ RegsKept s t l := .rfl

theorem Effect.regsKept (h : Effect s i t) : RegsKept s t (regsWritten i) := by
  cases h with
  | ldi r imm => simpa [regsWritten, Instr.wf, Instr.regBytes] using regsKept_setReg s r imm
  | add q r => simpa [regsWritten, Instr.wf, Instr.regBytes] using regsKept_setReg s q _
  | mul q r => simpa [regsWritten, Instr.wf, Instr.regBytes] using regsKept_setReg s q _
  | push r => simpa [regsWritten, Instr.wf, Instr.regBytes] using regsKept_push s (s.reg r)
  | pop r =>
    simpa [regsWritten, Instr.wf, Instr.regBytes] using (regsKept_pop s).trans (regsKept_setReg _ r _)
  | call r => simpa [regsWritten, Instr.wf, Instr.regBytes] using regsKept_push s s.returnAddr
  | ret => exact regsKept_pop s
  | jeq r => split <;> exact fun _ _ => rfl
  | jne r => split <;> exact fun _ _ => rfl
  | _ => exact fun _ _ => rfl

/-- Settles O33: what an instruction answers is an effect, and `Effect.regsKept` goes through these. -/
theorem onlyListedRegistersAreWritten : Obligations.OnlyListedRegistersAreWritten :=
  fun _ _ _ h => (effect_of_exec h).regsKept

/-- Of two writes to one register the second stands; two writes to different registers commute. -/
theorem setReg_setReg (s : State) (r q : Reg) (v w : Byte) :
    (s.setReg r v).setReg q w = if r = q then s.setReg q w else (s.setReg q w).setReg r v := by
  by_cases h : r = q
  · subst h
    rw [if_pos rfl]
    exact State.ext_of_reg (fun p => by simp only [reg_setReg]; split <;> rfl) rfl rfl rfl rfl rfl rfl
  · rw [if_neg h]
    refine State.ext_of_reg (fun p => ?_) rfl rfl rfl rfl rfl rfl
    simp only [reg_setReg]
    split
    · next hp => rw [if_neg (hp.trans_ne (Ne.symm h))]
    · rfl

theorem setReg_comm (s : State) {r q : Reg} (h : r ≠ q) (v w : Byte) :
    (s.setReg r v).setReg q w = (s.setReg q w).setReg r v := (setReg_setReg ..).trans (if_neg h)

theorem reg_setReg_of_ne (s : State) {r q : Reg} (h : r ≠ q) (v : Byte) : (s.setReg r v).reg q = s.reg q :=
  reg_setReg_other s v h.symm

theorem sp_setReg_of_ne (s : State) {r : Reg} (h : r ≠ Config.spIndex) (v : Byte) : (s.setReg r v).sp = s.sp :=
  reg_setReg_of_ne s h v

/-- A push takes no part in another register than SP. -/
theorem push_setReg (s : State) {r : Reg} (h : r ≠ Config.spIndex) (v w : Byte) :
    (s.setReg r v).push w = (s.push w).setReg r v := by
  rw [State.push, State.pushAddr, sp_setReg_of_ne s h, State.setSp, setReg_comm s h]
  rfl

/-- A pop takes no part in another register than SP. -/
theorem pop_setReg (s : State) {r : Reg} (h : r ≠ Config.spIndex) (v : Byte) :
    (s.setReg r v).pop.2 = s.pop.2.setReg r v := by
  rw [State.pop, sp_setReg_of_ne s h, State.setSp, setReg_comm s h]
  rfl

/-- What a register that an instruction does not read holds before it stands in that register after it, unless the
instruction writes it, and has no other influence. -/
theorem exec_setReg_of_not_mem_regsRead {r : Reg} (v : Byte) (h : Effect s i t) (hr : r ∉ regsRead i s) :
    exec i (s.setReg r v) = .next (if r ∈ regsWritten i then t else t.setReg r v) := by
  cases h with
  | bad h =>
    have hw : r ∉ regsWritten i := by simp [regsWritten, h]
    rw [exec_of_not_wf _ h, if_neg hw]
    rfl
  | hlt => rfl
  | ldi q imm =>
    have hw : r ∈ regsWritten (.ldi (regByte q) imm) ↔ r = q := by simp [regsWritten, Instr.wf, Instr.regBytes]
    simp only [exec_ldi, hw]
    rw [setReg_setReg]
    split <;> rfl
  | pop q =>
    have hsp : r ≠ Config.spIndex := by simpa [regsRead, Instr.wf, Instr.regBytes] using hr
    have hw : r ∈ regsWritten (.pop (regByte q)) ↔ r = q := by simp [regsWritten, Instr.wf, Instr.regBytes, hsp]
    simp only [exec_pop, hw, setReg_mem, sp_setReg_of_ne s hsp, pop_setReg s hsp]
    rw [setReg_setReg]
    split <;> rfl
  | ret =>
    have hsp : r ≠ Config.spIndex := by simpa [regsRead, Instr.wf, Instr.regBytes] using hr
    have hw : r ∉ regsWritten .ret := by simpa [regsWritten, Instr.wf, Instr.regBytes] using hsp
    rw [exec_ret, setReg_mem, sp_setReg_of_ne s hsp, pop_setReg s hsp, if_neg hw]
    rfl
  | push q =>
    obtain ⟨hsp, hq⟩ : r ≠ Config.spIndex ∧ r ≠ q := by simpa [regsRead, Instr.wf, Instr.regBytes] using hr
    have hw : r ∉ regsWritten (.push (regByte q)) := by simpa [regsWritten, Instr.wf, Instr.regBytes] using hsp
    rw [exec_push, reg_setReg_of_ne s hq, push_setReg s hsp, if_neg hw]
    rfl
  | call q =>
    obtain ⟨hsp, hq⟩ : r ≠ Config.spIndex ∧ r ≠ q := by simpa [regsRead, Instr.wf, Instr.regBytes] using hr
    have hw : r ∉ regsWritten (.call (regByte q)) := by simpa [regsWritten, Instr.wf, Instr.regBytes] using hsp
    rw [exec_call, reg_setReg_of_ne s hq, push_setReg s hsp, State.pushAddr, sp_setReg_of_ne s hsp, if_neg hw]
    rfl
  | add p q =>
    obtain ⟨hp, hq⟩ : r ≠ p ∧ r ≠ q := by simpa [regsRead, Instr.wf, Instr.regBytes] using hr
    have hw : r ∉ regsWritten (.add (regByte p) (regByte q)) := by
      simpa [regsWritten, Instr.wf, Instr.regBytes] using hp
    rw [exec_add, reg_setReg_of_ne s hp, reg_setReg_of_ne s hq, setReg_comm s hp, if_neg hw]
    rfl
  | mul p q =>
    obtain ⟨hp, hq⟩ : r ≠ p ∧ r ≠ q := by simpa [regsRead, Instr.wf, Instr.regBytes] using hr
    have hw : r ∉ regsWritten (.mul (regByte p) (regByte q)) := by
      simpa [regsWritten, Instr.wf, Instr.regBytes] using hp
    rw [exec_mul, reg_setReg_of_ne s hp, reg_setReg_of_ne s hq, setReg_comm s hp, if_neg hw]
    rfl
  | cmp p q =>
    obtain ⟨hp, hq⟩ : r ≠ p ∧ r ≠ q := by simpa [regsRead, Instr.wf, Instr.regBytes] using hr
    rw [exec_cmp, reg_setReg_of_ne s hp, reg_setReg_of_ne s hq, if_neg (by simp [regsWritten])]
    rfl
  | prn q =>
    have hq : r ≠ q := by simpa [regsRead, Instr.wf, Instr.regBytes] using hr
    rw [exec_prn, reg_setReg_of_ne s hq, if_neg (by simp [regsWritten])]
    rfl
  | jmp q =>
    have hq : r ≠ q := by simpa [regsRead, Instr.wf, Instr.regBytes] using hr
    rw [exec_jmp, reg_setReg_of_ne s hq, if_neg (by simp [regsWritten])]
    rfl
  | jeq q =>
    have hw : r ∉ regsWritten (.jeq (regByte q)) := by simp [regsWritten]
    rw [exec_jeq, setReg_fl, if_neg hw]
    by_cases hfl : s.fl = .equal
    · have hq : r ≠ q := by simpa [regsRead, Instr.wf, Instr.regBytes, State.flagEqual, hfl] using hr
      rw [if_pos hfl, if_pos hfl, reg_setReg_of_ne s hq]
      rfl
    · rw [if_neg hfl, if_neg hfl]
      rfl
  | jne q =>
    have hw : r ∉ regsWritten (.jne (regByte q)) := by simp [regsWritten]
    rw [exec_jne, setReg_fl, if_neg hw]
    by_cases hfl : s.fl = .equal
    · rw [if_pos hfl, if_pos hfl]
      rfl
    · have hq : r ≠ q := by simpa [regsRead, Instr.wf, Instr.regBytes, State.flagEqual, hfl] using hr
      rw [if_neg hfl, if_neg hfl, reg_setReg_of_ne s hq]
      rfl

/-- Settles O34: both clauses are cases of `exec_setReg_of_not_mem_regsRead`. -/
theorem onlyListedRegistersAreRead : Obligations.OnlyListedRegistersAreRead := by
  intro i s r v hr
  obtain ⟨t, ht, he⟩ := exec_effect i s
  have hset := exec_setReg_of_not_mem_regsRead v he hr
  refine ⟨fun hw => ?_, fun hw => ?_⟩
  · rw [hset, if_pos hw, ht]
  · rw [hset, if_neg hw, ht]
    rfl

end Sys2Proof.Machine
end

section
/-! PROOFS of the statements about the memory port (R32, R41, R42, R118): which accesses a step makes, that these are
all that happens to memory, and that the cells a step does not read take no part in it. -/

namespace Sys2Proof.Machine

variable {s t : State} {i : Instr}

/-- An instruction makes at most one access beyond the fetch (R32). -/
theorem handlerAccesses_length_le_one (i : Instr) (s : State) : (handlerAccesses i s).length ≤ 1 := by
  have toList_length {α : Type} (o : Option α) : o.toList.length ≤ 1 := by cases o <;> simp
  cases i with
  | push a => exact toList_length _
  | call a => exact toList_length _
  | pop a => exact toList_length _
  | ret => exact le_rfl
  | _ => exact Nat.zero_le 1

/-- An instruction that fails the operand check accesses no cell (R73). -/
theorem handlerAccesses_of_not_wf (h : i.wf = false) (s : State) : handlerAccesses i s = [] := by
  have unnamed {a : Byte} (ha : Instr.regBytes i = [a]) : regOf a = none := by
    obtain ⟨b, hb, hle⟩ := (wf_eq_false_iff i).1 h
    rw [ha, List.mem_singleton] at hb
    exact (regOf_eq_none_iff a).2 (hb ▸ hle)
  cases i with
  | push a => simp [handlerAccesses, unnamed rfl]
  | call a => simp [handlerAccesses, unnamed rfl]
  | pop a => simp [handlerAccesses, unnamed rfl]
  | ret => cases h
  | _ => rfl

@[simp] theorem handlerAccesses_push (r : Reg) (s : State) :
    handlerAccesses (.push (regByte r)) s = [.write s.pushAddr (s.reg r)] := by simp [handlerAccesses]

@[simp] theorem handlerAccesses_call (r : Reg) (s : State) :
    handlerAccesses (.call (regByte r)) s = [.write s.pushAddr s.returnAddr] := by simp [handlerAccesses]

@[simp] theorem handlerAccesses_pop (r : Reg) (s : State) :
    handlerAccesses (.pop (regByte r)) s = [.read s.sp] := by simp [handlerAccesses]

@[simp] theorem handlerAccesses_ret (s : State) : handlerAccesses .ret s = [.read s.sp] := rfl

theorem Effect.mem_eq (h : Effect s i t) : t.mem = applyAccesses (handlerAccesses i s) s.mem := by
  cases h with
  | bad h => rw [handlerAccesses_of_not_wf h]; rfl
  | push r => rw [handlerAccesses_push]; rfl
  | call r => rw [handlerAccesses_call]; rfl
  | pop r => rw [handlerAccesses_pop]; rfl
  | jeq r => split <;> rfl
  | jne r => split <;> rfl
  | _ => rfl

theorem stepAccesses_of_insn (hr : s.running = true) (hf : s.fault = none)
    (hd : decode (s.mem.read s.pc) (s.mem.read (s.pc + 1)) (s.mem.read (s.pc + 2)) = .insn i) :
    stepAccesses s = s.fetchAccesses ++ handlerAccesses i s := by
  simp only [stepAccesses, (canStep_iff s).2 ⟨hr, hf⟩, if_true, fetch_ir, fetch_opa, fetch_opb, hd]

theorem stepAccesses_of_invalid {b : Byte} (hr : s.running = true) (hf : s.fault = none)
    (hd : decode (s.mem.read s.pc) (s.mem.read (s.pc + 1)) (s.mem.read (s.pc + 2)) = .invalidOpcode b) :
    stepAccesses s = s.fetchAccesses := by
  simp only [stepAccesses, (canStep_iff s).2 ⟨hr, hf⟩, if_true, fetch_ir, fetch_opa, fetch_opb, hd, List.append_nil]

/-- The three reads of the fetch change nothing. -/
theorem applyAccesses_fetchAccesses_append (s : State) (l : List Access) (m : Memory) :
    applyAccesses (s.fetchAccesses ++ l) m = applyAccesses l m := rfl

/-- Settles O36: the accesses beyond the fetch are the instruction's, and `Effect.mem_eq` says that they make the
memory after it. -/
theorem stepMakesExactlyTheListedAccesses : Obligations.StepMakesExactlyTheListedAccesses := by
  intro s t hstep
  obtain ⟨hr, hf, ⟨b, hd, rfl⟩ | ⟨i, hd, he⟩⟩ := step_next_cases hstep
  · rw [stepAccesses_of_invalid hr hf hd]
    exact ⟨⟨[], rfl, Nat.zero_le 1⟩, rfl⟩
  · rw [stepAccesses_of_insn hr hf hd, applyAccesses_fetchAccesses_append]
    exact ⟨⟨_, rfl, handlerAccesses_length_le_one i s⟩, (effect_of_exec he).mem_eq⟩

/-- An instruction that stores makes no access but that store. -/
theorem handlerAccesses_eq_of_mem {a : Access} (h : a ∈ handlerAccesses i s) : handlerAccesses i s = [a] := by
  obtain ⟨b, hb⟩ := List.length_eq_one_iff.1
    (le_antisymm (handlerAccesses_length_le_one i s) (List.length_pos_of_mem h))
  rw [hb, List.mem_singleton] at h
  rw [hb, h]

theorem Effect.read_of_write_mem {a v : Byte} (h : Effect s i t) (hw : .write a v ∈ handlerAccesses i s) :
    t.mem.read a = v := by
  rw [h.mem_eq, handlerAccesses_eq_of_mem hw]
  exact Memory.read_write_same ..

/-- Settles O38: the cell holds the stored byte by `Effect.read_of_write_mem`, and a fetch reads cells. -/
theorem storeIsSeenByTheNextFetch : Obligations.StoreIsSeenByTheNextFetch := by
  intro i s t a v he hw
  have hcell := (effect_of_exec he).read_of_write_mem hw
  refine ⟨?_, ?_, ?_⟩ <;> rintro rfl <;> exact hcell

/-! ### A store to a cell that a step does not read -/

/-- Writes to different addresses commute. -/
theorem Memory.write_comm {m : Memory} (hm : m.wf) {a b : Byte} (h : a ≠ b) (v w : Byte) :
    (m.write a v).write b w = (m.write b w).write a v := by
  refine Memory.ext_of_read (wf_write (wf_write hm a v) b w) (wf_write (wf_write hm b w) a v) fun c => ?_
  simp only [Memory.read_write]
  split
  · next hc => rw [if_neg (hc.trans_ne h.symm)]
  · rfl

/-- Of two writes to one address the second stands. -/
theorem Memory.write_write_same {m : Memory} (hm : m.wf) (a v w : Byte) : (m.write a v).write a w = m.write a w := by
  refine Memory.ext_of_read (wf_write (wf_write hm a v) a w) (wf_write hm a w) fun c => ?_
  simp only [Memory.read_write]
  split <;> rfl

/-- A write to a cell that no access of a list writes may come before them or after them. -/
theorem applyAccesses_write_comm {a : Byte} (v : Byte) (l : List Access) : ∀ {m : Memory}, m.wf →
    (∀ w, Access.write a w ∉ l) → applyAccesses l (m.write a v) = (applyAccesses l m).write a v := by
  induction l with
  | nil => exact fun _ _ => rfl
  | cons access l ih =>
    intro m hm hl
    have hrest : ∀ w, Access.write a w ∉ l := fun w h => hl w (List.mem_cons_of_mem _ h)
    cases access with
    | read b => exact ih hm hrest
    | write b w =>
      have hab : a ≠ b := fun h => hl w (h ▸ List.mem_cons_self)
      rw [applyAccesses, Memory.write_comm hm hab, ih (Memory.wf_write hm b w) hrest, applyAccesses]

/-- A store to a cell that neither the fetch nor the instruction reads changes an outcome in its memory alone. -/
theorem Effect.exec_store {a v : Byte} (h : Effect s i t) (hfetch : (s.store a v).fetch = s.fetch)
    (hread : .read a ∉ handlerAccesses i s) :
    exec i (s.store a v) = .next { t with mem := applyAccesses (handlerAccesses i s) (s.mem.write a v) } := by
  cases h with
  | bad h =>
    rw [exec_of_not_wf _ h, handlerAccesses_of_not_wf h, State.raise, hfetch]
    rfl
  | hlt => rfl
  | ldi r imm => exact exec_ldi ..
  | prn r => exact exec_prn ..
  | add q r => exact exec_add ..
  | mul q r => exact exec_mul ..
  | cmp q r => exact exec_cmp ..
  | jmp r => exact exec_jmp ..
  | push r =>
    rw [handlerAccesses_push]
    exact exec_push ..
  | call r =>
    rw [handlerAccesses_call]
    exact exec_call ..
  | pop r =>
    have hsp : s.sp ≠ a := by simpa [eq_comm] using hread
    rw [exec_pop, handlerAccesses_pop, store_mem, store_sp, Memory.read_write_other _ _ hsp]
    rfl
  | ret =>
    have hsp : s.sp ≠ a := by simpa [eq_comm] using hread
    rw [exec_ret, handlerAccesses_ret, store_mem, store_sp, Memory.read_write_other _ _ hsp]
    rfl
  | jeq r =>
    rw [exec_jeq, store_fl]
    split <;> rfl
  | jne r =>
    rw [exec_jne, store_fl]
    split <;> rfl

/-- The store stands in the memory after the instruction, unless the instruction writes that cell. -/
theorem Effect.exec_store_cases {a v : Byte} (h : Effect s i t) (hm : s.mem.wf)
    (hfetch : (s.store a v).fetch = s.fetch) (hread : .read a ∉ handlerAccesses i s) :
    ((∀ w, .write a w ∉ handlerAccesses i s) → exec i (s.store a v) = .next (t.store a v)) ∧
      (∀ w, .write a w ∈ handlerAccesses i s → exec i (s.store a v) = .next t) := by
  refine ⟨fun hunwritten => ?_, fun w hwritten => ?_⟩ <;> rw [h.exec_store hfetch hread]
  · rw [applyAccesses_write_comm v _ hm hunwritten, ← h.mem_eq]
    rfl
  · have hover : applyAccesses (handlerAccesses i s) (s.mem.write a v) = t.mem := by
      rw [h.mem_eq, handlerAccesses_eq_of_mem hwritten]
      exact Memory.write_write_same hm a v w
    rw [hover]

theorem fetch_store {a : Byte} (h : .read a ∉ s.fetchAccesses) (v : Byte) : (s.store a v).fetch = s.fetch := by
  simp only [State.fetchAccesses, List.mem_cons, Access.read.injEq, List.not_mem_nil, or_false, not_or] at h
  obtain ⟨hpc, hpc1, hpc2⟩ := h
  simp only [State.fetch, store_mem, store_pc, Memory.read_write_other _ _ (Ne.symm hpc),
    Memory.read_write_other _ _ (Ne.symm hpc1), Memory.read_write_other _ _ (Ne.symm hpc2)]

/-- Fault entry records the fetched bytes alone. -/
theorem raise_store {a v : Byte} (h : (s.store a v).fetch = s.fetch) (c : Cause) :
    (s.store a v).raise c = (s.raise c).store a v := by
  rw [State.raise, h]
  rfl

theorem decode_store {a v : Byte} (h : (s.store a v).fetch = s.fetch) :
    decode ((s.store a v).mem.read (s.store a v).pc) ((s.store a v).mem.read ((s.store a v).pc + 1))
        ((s.store a v).mem.read ((s.store a v).pc + 2)) =
      decode (s.mem.read s.pc) (s.mem.read (s.pc + 1)) (s.mem.read (s.pc + 2)) :=
  congrArg (fun f : Fetched => decode f.ir f.opa f.opb) h

theorem write_not_mem_fetchAccesses (s : State) (a w : Byte) : .write a w ∉ s.fetchAccesses := by
  simp [State.fetchAccesses]

/-- Settles O37: a stopped machine stays stopped by `step_eq_fault_of_not_canStep`; a step fetches and decodes the same
bytes by `fetch_store`, and then faults as before or goes on by `Effect.exec_store_cases`. -/
theorem stepDependsOnNoCellItDoesNotRead : Obligations.StepDependsOnNoCellItDoesNotRead := by
  intro s a v hm hread
  cases hcan : s.canStep with
  | false =>
    obtain ⟨e, stopped⟩ := step_eq_fault_of_not_canStep hcan
    rw [stopped s rfl rfl, stopped (s.store a v) rfl rfl]
    exact ⟨fun _ => rfl, fun _ _ => rfl⟩
  | true =>
    obtain ⟨hr, hf⟩ := (canStep_iff s).1 hcan
    cases hd : decode (s.mem.read s.pc) (s.mem.read (s.pc + 1)) (s.mem.read (s.pc + 2)) with
    | invalidOpcode b =>
      rw [stepAccesses_of_invalid hr hf hd] at hread ⊢
      have hfetch := fetch_store hread v
      rw [step_of_invalid hr hf hd, step_of_invalid (s := s.store a v) hr hf ((decode_store hfetch).trans hd),
        raise_store hfetch]
      exact ⟨fun _ => rfl, fun w hw => absurd hw (write_not_mem_fetchAccesses s a w)⟩
    | insn i =>
      rw [stepAccesses_of_insn hr hf hd] at hread ⊢
      simp only [List.mem_append, not_or, write_not_mem_fetchAccesses, false_or] at hread ⊢
      obtain ⟨hfetchread, hread⟩ := hread
      have hfetch := fetch_store hfetchread v
      obtain ⟨t, ht, he⟩ := exec_effect i s
      rw [step_of_insn hr hf hd, step_of_insn (s := s.store a v) hr hf ((decode_store hfetch).trans hd), ht]
      exact he.exec_store_cases hm hfetch hread

end Sys2Proof.Machine
end

section
/-! PROOFS of the statements about reset and the host's interface (R26, R110 to R116, R146, R147): LOAD by induction on
its bytes, the run by induction on its fuel. -/

namespace Sys2Proof.Machine

variable {s t : State}

/-- Settles O1: every field of the reset state is written out. -/
theorem resetLeavesTheZeroedMachine : Obligations.ResetLeavesTheZeroedMachine :=
  ⟨by decide, rfl, rfl, rfl, rfl, rfl, fun _ => rfl, rfl⟩

/-! ### LOAD -/

theorem loadAllowed_iff (bytes : List Nat) (start : Nat) :
    loadAllowed bytes start = true ↔ start + bytes.length ≤ 256 ∧ ∀ b ∈ bytes, b < 256 := by
  simp [loadAllowed]

/-- A LOAD within memory changes no cell outside its range. -/
theorem read_loadBytes_outside (bytes : List Nat) : ∀ (start : Nat) (m : Memory) (a : Byte),
    start + bytes.length ≤ 256 → a.toNat < start ∨ start + bytes.length ≤ a.toNat →
    (loadBytes bytes start m).read a = m.read a := by
  induction bytes with
  | nil => exact fun _ _ _ _ _ => rfl
  | cons b bytes ih =>
    intro start m a hfit hout
    rw [List.length_cons] at hfit hout
    have hne : a ≠ BitVec.ofNat 8 start := by
      rintro rfl
      rw [BitVec.toNat_ofNat] at hout
      omega
    rw [loadBytes, ih (start + 1) _ a (by omega) (by omega), Memory.read_write_other _ _ hne]

/-- A LOAD within memory leaves its bytes at consecutive addresses: what comes after a byte's write is outside it. -/
theorem read_loadBytes_inside (bytes : List Nat) : ∀ (start : Nat) (m : Memory) (k b : Nat),
    start + bytes.length ≤ 256 → bytes[k]? = some b →
    (loadBytes bytes start m).read (BitVec.ofNat 8 (start + k)) = BitVec.ofNat 8 b := by
  induction bytes with
  | nil => exact fun _ _ _ _ _ h => by simp at h
  | cons c bytes ih =>
    intro start m k b hfit hk
    rw [List.length_cons] at hfit
    cases k with
    | zero =>
      obtain rfl : c = b := by simpa using hk
      have hbefore : (BitVec.ofNat 8 start).toNat < start + 1 := by
        rw [BitVec.toNat_ofNat]
        omega
      rw [loadBytes, start.add_zero, read_loadBytes_outside bytes _ _ _ (by omega) (.inl hbefore),
        Memory.read_write_same]
    | succ k =>
      rw [loadBytes, ← Nat.add_assoc, Nat.add_right_comm]
      exact ih (start + 1) _ k b (by omega) (by simpa using hk)

/-- Settles O41: the two sides of the LOAD's range are `read_loadBytes_inside` and `read_loadBytes_outside`. -/
theorem loadWritesItsBytesOrIsRefusedWhole : Obligations.LoadWritesItsBytesOrIsRefusedWhole := by
  refine fun s bytes start => ⟨fun hallowed => ?_, fun hrefused => ?_⟩
  · obtain ⟨hfit, hbytes⟩ := hallowed
    refine ⟨_, if_pos ((loadAllowed_iff bytes start).2 ⟨hfit, hbytes⟩), fun k b hk => ?_, fun a ha => ?_⟩
    · rw [read_loadBytes_inside bytes start _ k b hfit hk, BitVec.toNat_ofNat]
      exact Nat.mod_eq_of_lt (hbytes b (List.mem_of_getElem? hk))
    · exact read_loadBytes_outside bytes start _ a hfit ha
  · exact if_neg fun h => hrefused ((loadAllowed_iff bytes start).1 h)

/-! ### The run -/

theorem run_of_not_canStep (h : s.canStep = false) (fuel : Nat) : s.run fuel = s := by
  obtain ⟨e, stopped⟩ := step_eq_fault_of_not_canStep h
  cases fuel with
  | zero => rfl
  | succ fuel => simp only [State.run, stopped s rfl rfl]

/-- A machine may step and does, or stays as it is under every fuel. -/
theorem step_next_or_run_eq (s : State) : (∃ t, step s = .next t) ∨ ∀ fuel, s.run fuel = s := by
  cases h : s.canStep with
  | false => exact .inr (run_of_not_canStep h)
  | true =>
    obtain ⟨hr, hf⟩ := (canStep_iff s).1 h
    exact .inl (exists_step_of_running hr hf)

theorem run_add (n k : Nat) : ∀ s : State, s.run (n + k) = (s.run n).run k := by
  induction n with
  | zero => simp
  | succ n ih =>
    intro s
    obtain ⟨t, ht⟩ | hstay := step_next_or_run_eq s
    · rw [Nat.add_right_comm, run_succ_of_next ht, run_succ_of_next ht, ih]
    · simp only [hstay]

/-- What every step keeps, every run keeps. -/
theorem run_induction {P : State → Prop} (hstep : ∀ s t, P s → step s = .next t → P t) (n : Nat) :
    ∀ {s : State}, P s → P (s.run n) := by
  induction n with
  | zero => exact fun h => h
  | succ n ih =>
    intro s hs
    obtain ⟨t, ht⟩ | hstay := step_next_or_run_eq s
    · rw [run_succ_of_next ht]
      exact ih (hstep s t hs ht)
    · rwa [hstay]

theorem inv_run (hinv : s.Inv) (n : Nat) : (s.run n).Inv := run_induction stepKeepsTheMachineInvariant n hinv

theorem wf_run (hm : s.mem.wf) (n : Nat) : Memory.wf (s.run n).mem := run_induction (fun _ _ => wf_step) n hm

/-- How a machine that satisfies the invariant can be stopped (R146). -/
theorem cleanEnd_or_faultEnd (hinv : s.Inv) (h : s.canStep = false) :
    (s.CleanEnd ∧ s.mem.read s.pc = 0x01) ∨ s.FaultEnd := by
  cases hr : s.running with
  | false =>
    obtain ⟨hf, hopcode⟩ := hinv.haltedOnHlt hr
    exact .inl ⟨⟨hr, hf⟩, hopcode⟩
  | true =>
    refine .inr ⟨hr, ?_⟩
    simpa [State.canStep, hr] using h

/-- Settles O44: more fuel runs on from the stopped machine by `run_add`, and the run kept the invariant by
`inv_run`. -/
theorem endedRunIsCleanOrFaulted : Obligations.EndedRunIsCleanOrFaulted := by
  refine fun s n hinv hstopped => ⟨fun k => ?_, cleanEnd_or_faultEnd (inv_run hinv n) hstopped⟩
  rw [run_add, run_of_not_canStep hstopped]

/-- Settles O42: RUN leaves a stopped machine by `run_of_not_canStep`, and a LOAD is refused once a RUN was issued. -/
theorem onlyResetLeavesAStoppedMachine : Obligations.OnlyResetLeavesAStoppedMachine := by
  refine fun h => ⟨⟨rfl, rfl, fun bytes start => ?_⟩, fun fuel hstopped => run_of_not_canStep hstopped fuel,
    fun fuel bytes start => rfl⟩
  simp [Session.load, Session.reset]

/-- Settles O43: the status splits on the latch and the Running flag, and the invariant shuts out a halted machine with
a filled latch. -/
theorem statusNamesTheCondition : Obligations.StatusNamesTheCondition := by
  intro s hinv
  cases hf : s.fault with
  | none => cases hr : s.running <;> simp [State.status, State.canStep, State.CleanEnd, State.FaultEnd, hf, hr]
  | some f =>
    have hr : s.running = true := by
      refine (Bool.eq_false_or_eq_true s.running).resolve_right fun hr => ?_
      obtain ⟨hempty, -⟩ := hinv.haltedOnHlt hr
      simp [hf] at hempty
    simp [State.status, State.canStep, State.CleanEnd, State.FaultEnd, hf, hr]

/-! ### A run that does not end -/

theorem step_sansOut (h : step s = .next t) : ∃ u, step s.sansOut = .next u ∧ u.sansOut = t.sansOut := by
  have hstep := onNext_sansOut_step_sansOut s
  rw [h] at hstep
  cases hu : step s.sansOut with
  | next u => exact ⟨u, rfl, by simpa [hu, onNext] using hstep⟩
  | fault e => simp [hu, onNext] at hstep
  | refused e => simp [hu, onNext] at hstep

/-- A run does not read the output. -/
theorem sansOut_run_sansOut (n : Nat) : ∀ s : State, (s.sansOut.run n).sansOut = (s.run n).sansOut := by
  induction n with
  | zero => exact fun _ => rfl
  | succ n ih =>
    intro s
    cases hcan : s.canStep with
    | false => rw [run_of_not_canStep hcan, run_of_not_canStep (s := s.sansOut) hcan]; rfl
    | true =>
      obtain ⟨hr, hf⟩ := (canStep_iff s).1 hcan
      obtain ⟨t, ht⟩ := exists_step_of_running hr hf
      obtain ⟨u, hu, hut⟩ := step_sansOut ht
      rw [run_succ_of_next ht, run_succ_of_next hu, ← ih u, hut, ih t]

/-- The part of a state that can differ between two machines that may step, output aside: one of finitely many. -/
def State.runPart (s : State) : (Reg → Byte) × Byte × BitVec 3 × (Byte → Byte) :=
  (s.reg, s.pc, flagBits s.fl, s.mem.read)

theorem flagBits_injective : Function.Injective flagBits := by
  intro f g h
  cases f <;> cases g <;> simp [flagBits] at h ⊢

theorem sansOut_eq_of_runPart_eq (hs : s.mem.wf) (ht : t.mem.wf) (hcs : s.canStep = true) (hct : t.canStep = true)
    (h : s.runPart = t.runPart) : s.sansOut = t.sansOut := by
  obtain ⟨hrs, hfs⟩ := (canStep_iff s).1 hcs
  obtain ⟨hrt, hft⟩ := (canStep_iff t).1 hct
  simp only [State.runPart, Prod.mk.injEq] at h
  obtain ⟨hreg, hpc, hfl, hmem⟩ := h
  exact State.ext_of_reg (congrFun hreg) hpc (flagBits_injective hfl) (hrs.trans hrt.symm) (hfs.trans hft.symm)
    (Memory.ext_of_read hs ht (congrFun hmem)) rfl

/-- Settles O45: there are more steps than values of `State.runPart`, so two states of the run agree but for their
output, and by `sansOut_run_sansOut` the runs from them do so too. -/
theorem endlessRunRepeatsUpToItsOutput : Obligations.EndlessRunRepeatsUpToItsOutput := by
  intro s hm hendless
  obtain ⟨m, n, hne, hpart⟩ := Finite.exists_ne_map_eq_of_infinite fun n => (s.run n).runPart
  have hsame : (s.run m).sansOut = (s.run n).sansOut :=
    sansOut_eq_of_runPart_eq (wf_run hm m) (wf_run hm n) (hendless m) (hendless n) hpart
  have hrepeat : ∀ k, (s.run (m + k)).sansOut = (s.run (n + k)).sansOut := fun k => by
    rw [run_add, run_add, ← sansOut_run_sansOut, hsame, sansOut_run_sansOut]
  obtain hlt | hlt := Nat.lt_or_gt_of_ne hne
  · exact ⟨m, n, hlt, hrepeat⟩
  · exact ⟨n, m, hlt, fun k => (hrepeat k).symm⟩

end Sys2Proof.Machine
end
